-- ==== Sys2Proof/Word.lean ====
section
/-! DEFINITION. The two word types of the codec core: a byte (spec R7) and a register word (spec R23). -/

namespace Sys2Proof

/-- "a byte is 8 bits unsigned" (R7); every byte buffer, token field and buffer cell is made of these. -/
abbrev Byte := BitVec 8

/-- A 32-bit register or command word (R23, R102); a narrower bus datum stands in its low bits (R69). -/
abbrev Word := BitVec 32

end Sys2Proof
end

