-- ==== Sys2Proof/Config.lean ====
section
/-! DEFINITION. The build parameters of R6 and the model's one free value.

The parameters are a record that `State` carries and no step changes (the registers CAP, IBUF_SIZE and OBUF_SIZE
read it), so a statement about every state is a statement about every build. -/

namespace Sys2Proof

/-- The implementation parameters of R6 (I17 to I20), fixed when an instance is built. `P_BUS_PROTOCOL` is not
modelled (R6, I21). -/
structure Build where
  /-- `P_IBUF_SIZE`, 1 to 65536 bytes. -/
  ibufSize : Nat
  /-- `P_OBUF_SIZE`, 1 to 65536 bytes. -/
  obufSize : Nat
  /-- `P_HAS_SELECTOR`. -/
  hasSelector : Bool
  /-- `P_WM_OVERLAP`. -/
  wmOverlap : Bool
deriving DecidableEq, Repr

/-- The legal values of R6. -/
abbrev Build.Legal (b : Build) : Prop :=
  (1 ≤ b.ibufSize ∧ b.ibufSize ≤ 65536) ∧ (1 ≤ b.obufSize ∧ b.obufSize ≤ 65536)

namespace Config

/-- The values R6 suggests (4096, 8192, selector present) and the one it fixes (`P_WM_OVERLAP` 0).
DESIGN CHOICE (log entry 1), unsafe: R6 leaves the first three OPEN; `State.reset` is built with these, and no
statement about every state depends on them. -/
def suggestedBuild : Build :=
  { ibufSize := 4096, obufSize := 8192, hasSelector := true, wmOverlap := false }

/-- The free byte: what draw number `draw` gives at buffer index `index`. Nothing constrains it (I1 to I3: an OBUF
byte read while busy, every OBUF byte after a malformed stream or an overflow, every buffer byte after reset).
Log entry 2; safe. -/
opaque freeByte (draw index : Nat) : BitVec 8

end Config

end Sys2Proof
end

