-- ==== Sys2Proof/Syntax.lean ====
section
/-! DEFINITION. The instructions: one constructor for each of the 13 rows of spec/opcode_table.json, eight command
words (R106) and five tokens (R90). The command words are what the host writes to CMD; the tokens are what the two
decoders execute, the core's "real instruction set" (30_encoding.md, its opening). -/

namespace Sys2Proof

/-- The two codec identifiers (R104); also the two choices of the selector (R220). -/
inductive Codec where
  | rle
  | wm
deriving DecidableEq, Repr

/-- The two operations that name a codec (R103): OP = 0 is ENC, OP = 1 is DEC. -/
inductive Direction where
  | enc
  | dec
deriving DecidableEq, Repr

/-- The instructions. Operands are the bits the row leaves open, each at the width the encoding gives it. -/
inductive Instr where
  /-- `RLE.ENC`, R163. -/
  | rleEnc
  /-- `RLE.DEC`, R164. -/
  | rleDec
  /-- `WM.ENC`, R197. -/
  | wmEnc
  /-- `WM.DEC`, R198. -/
  | wmDec
  /-- `SEL`, R225; `alg` is the don't-care field, bits [5:4] of the word. -/
  | sel (alg : BitVec 2)
  /-- `CMD.NOP`, R121; `rest` is bits [31:1] of the word, all ignored. -/
  | cmdNop (rest : BitVec 31)
  /-- `CMD.UNSUPPORTED_ALG`, R125: `op` is ENC or DEC, `alg` the identifier outside {RLE, WindowMatch}. -/
  | cmdUnsupportedAlg (op : Direction) (alg : BitVec 2)
  /-- `CMD.ILLEGAL`, R124; `w` is the whole illegal word. -/
  | cmdIllegal (w : Word)
  /-- `RLE.LIT`, R158: one raw byte. -/
  | rleLit (v : Byte)
  /-- `RLE.RUN`, R157: `c` copies of `v`. -/
  | rleRun (v c : Byte)
  /-- `WM.LIT`, R191. -/
  | wmLit (v : Byte)
  /-- `WM.MATCH`, R192: copy `l` bytes from `o` bytes back in the output. -/
  | wmMatch (o l : Byte)
  /-- `WM.BAD_MARKER`, R193: a marker byte that is neither 0x00 nor 0x01. -/
  | wmBadMarker (m : Byte)
deriving DecidableEq, Repr

end Sys2Proof
end

