-- ==== Sys2Proof/WellFormed.lean ====
section
/-! DEFINITION. The fields of the CMD word (R102) and when an instruction is well formed: exactly when its operands
are ones its row of the opcode table admits. -/

namespace Sys2Proof

/-- `WORD[3] ≠ 0`, `WORD[31:6] ≠ 0`, `OP = 3`, or `OP = 2` in a build without the selector (R124). -/
abbrev illegalWord (hasSelector : Bool) (w : Word) : Prop :=
  w.extractLsb' 6 26 ≠ 0 ∨ w.extractLsb' 3 1 ≠ 0 ∨ w.extractLsb' 1 2 = 3 ∨
    (w.extractLsb' 1 2 = 2 ∧ hasSelector = false)

/-- Which operands each row admits, in a build with or without the selector. The ranges of R90 are those the
encoders produce; what a decoder accepts (R92, R94) is wider, and it is the decoders' rows that these are. -/
def Instr.wf (hasSelector : Bool) : Instr → Bool
  | .rleEnc => true
  | .rleDec => true
  | .wmEnc => true
  | .wmDec => true
  | .sel _ => hasSelector
  | .cmdNop _ => true
  | .cmdUnsupportedAlg _ alg => decide (2 ≤ alg.toNat)
  | .cmdIllegal w => decide (w.extractLsb' 0 1 = 1) && decide (illegalWord hasSelector w)
  | .rleLit v => decide (v ≠ 0xFF)
  | .rleRun _ _ => true
  | .wmLit _ => true
  | .wmMatch _ _ => true
  | .wmBadMarker m => decide (2 ≤ m.toNat)

end Sys2Proof
end

