-- ==== Sys2Proof/Decode.lean ====
section
/-! DEFINITION. Decoding: a command word (R102 to R106), the next token of an RLE stream (R91, R92, R96) and the next
token of a Window-Match stream (R93, R94, R97); then the encoder. Every field is one byte, read as it stands (R95). -/

namespace Sys2Proof

/-- Why a byte sequence holds no next token. `endOfStream` is the decoders' success; the others are the truncated
tokens of R159 and R193. -/
inductive Reject where
  | endOfStream
  | truncatedRun
  | truncatedLiteral
  | truncatedMatch
deriving DecidableEq, Repr

/-- What an instruction is encoded in: one word written to CMD, or bytes of a stream of one codec, in stream order. -/
inductive Code where
  | command (w : Word)
  | stream (c : Codec) (bytes : List Byte)
deriving DecidableEq, Repr

/-- `CMD.START`, bit 0. -/
def cmdStart (w : Word) : BitVec 1 := w.extractLsb' 0 1

/-- `CMD.OP`, bits [2:1] (R103). -/
def cmdOp (w : Word) : BitVec 2 := w.extractLsb' 1 2

/-- `CMD.ALG`, bits [5:4] (R104). -/
def cmdAlg (w : Word) : BitVec 2 := w.extractLsb' 4 2

/-- The command map of R106: every word has exactly one reading. `OP = 2` without the selector is illegal (R105). -/
def decodeCommand (hasSelector : Bool) (w : Word) : Instr :=
  if cmdStart w = 0 then .cmdNop (w.extractLsb' 1 31)
  else if illegalWord hasSelector w then .cmdIllegal w
  else if cmdOp w = 2 then .sel (cmdAlg w)
  else if 2 ≤ (cmdAlg w).toNat then .cmdUnsupportedAlg (if cmdOp w = 0 then .enc else .dec) (cmdAlg w)
  else if cmdOp w = 0 then (if cmdAlg w = 0 then .rleEnc else .wmEnc)
  else (if cmdAlg w = 0 then .rleDec else .wmDec)

/-- The RLE token at the head of a stream, with the bytes after it (R96): 0xFF is a run marker, every other byte a
literal. -/
def decodeRle : List Byte → Except Reject (Instr × List Byte)
  | [] => .error .endOfStream
  | b :: rest =>
    if b = 0xFF then
      match rest with
      | v :: c :: rest' => .ok (.rleRun v c, rest')
      | _ => .error .truncatedRun
    else .ok (.rleLit b, rest)

/-- The Window-Match token at the head of a stream, with the bytes after it (R97): the marker first, then the fit of
the token in the stream (R194). -/
def decodeWm : List Byte → Except Reject (Instr × List Byte)
  | [] => .error .endOfStream
  | m :: rest =>
    if m = 0x00 then
      match rest with
      | v :: rest' => .ok (.wmLit v, rest')
      | [] => .error .truncatedLiteral
    else if m = 0x01 then
      match rest with
      | o :: l :: rest' => .ok (.wmMatch o l, rest')
      | _ => .error .truncatedMatch
    else .ok (.wmBadMarker m, rest)

/-- The next token of a stream of codec `c`: streams are algorithm-blind, the command names the codec (R100). -/
def decodeToken (c : Codec) (bytes : List Byte) : Except Reject (Instr × List Byte) :=
  match c with
  | .rle => decodeRle bytes
  | .wm => decodeWm bytes

/-- The decoder of the whole table, with what follows the instruction in its stream. -/
def decode (hasSelector : Bool) : Code → Except Reject (Instr × List Byte)
  | .command w => .ok (decodeCommand hasSelector w, [])
  | .stream c bytes => decodeToken c bytes

/-! ## The encoder -/

/-- The command word of R102 from its fields. -/
def commandWord (reserved : BitVec 26) (alg : BitVec 2) (bit3 : BitVec 1) (op : BitVec 2) (start : BitVec 1) : Word :=
  reserved ++ alg ++ bit3 ++ op ++ start

/-- `CMD.OP` of ENC and DEC (R103). -/
def Direction.op : Direction → BitVec 2
  | .enc => 0
  | .dec => 1

/-- `CMD.ALG` of a codec, and the numbering of `RESULT.SEL` (R104). -/
def Codec.alg : Codec → BitVec 2
  | .rle => 0
  | .wm => 1

/-- The encoding of an instruction: the CMD values of R106 and the token formats of R91 to R94. -/
def encode : Instr → Code
  | .rleEnc => .command (commandWord 0 Codec.rle.alg 0 Direction.enc.op 1)
  | .rleDec => .command (commandWord 0 Codec.rle.alg 0 Direction.dec.op 1)
  | .wmEnc => .command (commandWord 0 Codec.wm.alg 0 Direction.enc.op 1)
  | .wmDec => .command (commandWord 0 Codec.wm.alg 0 Direction.dec.op 1)
  | .sel alg => .command (commandWord 0 alg 0 2 1)
  | .cmdNop rest => .command (rest ++ 0#1)
  | .cmdUnsupportedAlg op alg => .command (commandWord 0 alg 0 op.op 1)
  | .cmdIllegal w => .command w
  | .rleLit v => .stream .rle [v]
  | .rleRun v c => .stream .rle [0xFF, v, c]
  | .wmLit v => .stream .wm [0x00, v]
  | .wmMatch o l => .stream .wm [0x01, o, l]
  | .wmBadMarker m => .stream .wm [m]

/-! ## The host's numbering of the table

The table reads a token's byte pattern as one number with its FIRST stream byte in the HIGHEST bits (the marker of
RLE.RUN is bits 23..16), and a command word as the 32-bit word itself. DEDUCED from the table's own "fixed" and
"fields" entries; log entry 3. -/

/-- Byte `k` of `w`, counted from the least significant. -/
def tableByte (w k : Nat) : Byte := BitVec.ofNat 8 (w / 256 ^ k)

/-- The code that `nbits` bits numbered as the table numbers them stand for. A row of 32 bits is a command word, of 24
bits a run or a match by its marker, of 16 bits a Window-Match literal. The rows CMD.NOP and CMD.ILLEGAL give bits of
the lowest three positions only, so 8 bits below 8 are the low bits of a command word; any other byte is the one-byte
token RLE.LIT, or WM.BAD_MARKER where it is 0xFF, which no RLE literal is. With no bits given it is the RLE literal 0. -/
def tableCode (nbits w : Nat) : Option Code :=
  if nbits = 32 then some (.command (BitVec.ofNat 32 w))
  else if nbits = 24 then
    if tableByte w 2 = 0xFF then some (.stream .rle [0xFF, tableByte w 1, tableByte w 0])
    else if tableByte w 2 = 0x01 then some (.stream .wm [0x01, tableByte w 1, tableByte w 0])
    else none
  else if nbits = 16 then
    if tableByte w 1 = 0x00 then some (.stream .wm [0x00, tableByte w 0]) else none
  else if nbits = 8 then
    if w % 256 < 8 then some (.command (BitVec.ofNat 32 (w % 256)))
    else if tableByte w 0 = 0xFF then some (.stream .wm [0xFF])
    else some (.stream .rle [tableByte w 0])
  else if nbits = 0 then some (.stream .rle [0x00])
  else none

/-- The instruction the decoder reads from a table word, in the build `State.reset` has. -/
def decodeTableWord (nbits w : Nat) : Option Instr :=
  match tableCode nbits w with
  | none => none
  | some code =>
    match decode Config.suggestedBuild.hasSelector code with
    | .ok (i, _) => some i
    | .error _ => none

end Sys2Proof
end

