-- ==== Sys2Proof/Machine/State.lean ====
section
/-! DEFINITION. The state of the codec core: plain data, holding every piece of state the spec gives it, and the
environment's pending inputs. INVENTORY.md lists each field with its rule. -/

namespace Sys2Proof.Machine

/-- Why a bus transaction gets the response `ERROR` (I5). -/
inductive BusError where
  /-- A byte of it is at an unmapped offset (R64). -/
  | unmapped
  /-- A register access that is not 4 bytes at a multiple of 4 (R65). -/
  | registerAccess
  /-- A buffer access of a size other than 1, 2 or 4, or not naturally aligned (R66). -/
  | bufferAccess
deriving DecidableEq, Repr

/-- The faults: what stops a run. -/
inductive Fault where
  /-- Raised by `step` when the host's next transaction gets the response `ERROR`: "In a model, an `ERROR` response
  is a fault of the host program that issued it" (R67). The hardware goes on with its state unchanged, which is what
  `busAccess` gives. Safe: the model stops where the hardware goes on (log entry 4). -/
  | busError (why : BusError)
deriving DecidableEq, Repr

/-- The refusals. No arm of `exec` and no meaning answers with one: every instruction has its meaning. -/
inductive Refusal where
  /-- An instruction of the table that the model gives no meaning, by its mnemonic. Safe. -/
  | notModelled (mnemonic : String)
deriving DecidableEq, Repr

/-- The five error kinds of R240; `STATUS.ERR = 0` is `none` of them. Codes 6 and 7 are never written and have no
value here (log entry 19). -/
inductive CmdError where
  | malformedStream
  | unsupportedAlgorithm
  | outputOverflow
  | badLength
  | illegalCommand
deriving DecidableEq, Repr

/-- The fields of the register `CONFIG` (R28). Bits [31:18] are RAZ/WI (R33) and hold no state. -/
structure ConfigReg where
  /-- `CONFIG.WINDOW`, bits [7:0] (R29). -/
  window : Byte
  /-- `CONFIG.MIN_MATCH`, bits [15:8] (R30). -/
  minMatch : Byte
  /-- `CONFIG.FFESC`, bit 16 (R31). -/
  ffesc : Bool
  /-- `CONFIG.IE`, bit 17 (R32). -/
  ie : Bool
deriving DecidableEq, Repr

/-- One of the two byte memories (R60, R61), by buffer index. A listed byte holds the value listed; an unlisted one
holds the unspecified value of draw `fill` (R272, R132). `cells` is in one canonical form, `Memory.wf`. -/
structure Memory where
  /-- The number of the draw that gave the unlisted bytes their values. -/
  fill : Nat
  /-- The bytes written since that draw, at strictly rising indices. -/
  cells : List Host.Cell
deriving DecidableEq, Repr

/-- The working state of a decoder (R21, R45): never host-visible, present only during a command. -/
structure Decoder where
  /-- The stream position `p` (R21). -/
  pos : Nat
  /-- The output built so far, `Y` of R156 and R190. -/
  out : List Byte
  /-- `raise MalformedStream(p)` has happened, with `p` = `pos` (R11, R194). -/
  bad : Bool
deriving DecidableEq, Repr

/-- The decoder at the start of each command (R21). -/
def Decoder.fresh : Decoder := { pos := 0, out := [], bad := false }

/-- The command in flight: the hidden state present exactly while `STATUS.BUSY = 1` (R44, R123), and with it the
decoder's. The encoders' and the selector's working variables (R22, R45) live inside one commit step and need no
state between steps (DEDUCED, safe: log entry 14). -/
structure Flight where
  /-- `WORD`, the word written to CMD. -/
  word : Word
  /-- `CFG`, the snapshot of CONFIG. -/
  cfg : ConfigReg
  /-- `N`, the snapshot of IN_LEN. -/
  n : Word
  /-- `X = IBUF[0..N)` when `N ≤ P_IBUF_SIZE`; not taken (here empty) otherwise. -/
  x : List Byte
  /-- The decoder's working state. -/
  decoder : Decoder
deriving DecidableEq, Repr

/-- A host bus transaction (R62): an offset `a` from the block base, a size `n` in bytes and, for a write, the value
in the low `8n` bits of `v`. A size above 4 is always an `ERROR` (R65, R66). -/
inductive Txn where
  | read (a n : Nat)
  | write (a n : Nat) (v : Word)
deriving DecidableEq, Repr

/-- The response to a transaction (R62): `OK`, `OK` with read data (zero-extended), or `ERROR`. -/
inductive Response where
  | ok
  | data (d : Word)
  | error (why : BusError)
deriving DecidableEq, Repr

/-- One input the environment has pending. Their order is the total order of R74: a list of these is one
interleaving of the host, the core and reset, and every interleaving is a list. -/
inductive Event where
  /-- The host issues a transaction. -/
  | host (t : Txn)
  /-- The host polls: `POLL a, m, v` of R108. -/
  | poll (a : Nat) (m v : Word)
  /-- The core's decoder executes its next token, inside the command in flight. -/
  | token
  /-- The core commits the command in flight (R128). -/
  | commit
  /-- The reset input (R270). -/
  | reset
deriving DecidableEq, Repr

/-- The machine. `CMD` holds no state (R35); `ID`, `CAP`, `IBUF_SIZE` and `OBUF_SIZE` are read from constants and
`build`; `STATUS.BUSY` is `flight.isSome` (R37, R44), and `irq` is computed (R250). -/
structure State where
  /-- The build parameters (R6), which no step changes (log entry 20). -/
  build : Build
  /-- `CONFIG` (R28). -/
  config : ConfigReg
  /-- `IN_LEN` (R34). -/
  inLen : Word
  /-- The command in flight (R44); `STATUS.BUSY` is 1 exactly when there is one. -/
  flight : Option Flight
  /-- `STATUS.DONE` (R38). -/
  done : Bool
  /-- `STATUS.ERR` (R39); `none` is code 0. -/
  err : Option CmdError
  /-- `STATUS.HAZ` (R40). -/
  haz : Bool
  /-- `OUT_LEN` (R41). -/
  outLen : Word
  /-- `RESULT.SEL` (R42). -/
  resultSel : Codec
  /-- `IBUF` (R60). -/
  ibuf : Memory
  /-- `OBUF` (R61). -/
  obuf : Memory
  /-- The MODEL's own: the number of the next free draw (log entry 2). -/
  draws : Nat
  /-- The MODEL's own: the response to the latest host transaction (R62), as the host saw it (log entry 10). -/
  response : Option Response
  /-- The MODEL's own: the environment's pending inputs, next one first (log entry 5). -/
  pending : List Event
deriving DecidableEq, Repr

/-- `CONFIG` after reset, 0x0000_0314 (R270). -/
def ConfigReg.reset : ConfigReg := { window := 20, minMatch := 3, ffesc := false, ie := false }

/-- A core of build `b` right after power-on reset (R270 to R273): every register at its stated value, both buffers
unspecified (draws 0 and 1), no command in flight, no input pending. The values of the model's own fields are log
entry 11. -/
def State.ofBuild (b : Build) : State :=
  { build := b, config := ConfigReg.reset, inLen := 0, flight := none, done := false, err := none, haz := false,
    outLen := 0, resultSel := .rle, ibuf := { fill := 0, cells := [] }, obuf := { fill := 1, cells := [] },
    draws := 2, response := none, pending := [] }

/-- The machine right after reset, in the build R6 suggests. -/
def State.reset : State := State.ofBuild Config.suggestedBuild

end Sys2Proof.Machine
end

