-- ==== Sys2Proof/Machine/Ops.lean ====
section
/-! DEFINITION. The named operations over the buffers and the command in flight: reading and writing bytes, the
snapshot, accepting a command (R123), committing a result (R128 to R131), taking an error (R132, R249), reset (R270). -/

namespace Sys2Proof.Machine

/-! ## The byte memories -/

/-- The listed byte at index `k`, if it is listed. -/
def cellsRead : List Host.Cell → Nat → Option Byte
  | [], _ => none
  | (a, b) :: rest, k => if a = k then some b else cellsRead rest k

/-- List byte `v` at index `k`, keeping the indices strictly rising. -/
def cellsWrite (k : Nat) (v : Byte) : List Host.Cell → List Host.Cell
  | [] => [(k, v)]
  | (a, b) :: rest =>
    if k < a then (k, v) :: (a, b) :: rest
    else if k = a then (k, v) :: rest
    else (a, b) :: cellsWrite k v rest

/-- The indices are strictly rising and below `size`. -/
def cellsRising (size : Nat) : List Host.Cell → Bool
  | [] => true
  | [(a, _)] => decide (a < size)
  | (a, _) :: (a', b') :: rest => decide (a < a') && cellsRising size ((a', b') :: rest)

/-- The canonical form of a buffer of `size` bytes. An unlisted byte is one whose value is unspecified, which no
listed byte is, so there is no entry to drop (log entry 6). -/
def Memory.wf (size : Nat) (m : Memory) : Bool := cellsRising size m.cells

/-- What an unlisted byte reads as: the unspecified value its draw gave it, stable until the byte is written
(R72, R272, I2, I3). -/
def Memory.unlisted (m : Memory) (k : Nat) : Byte := Config.freeByte m.fill k

/-- The byte at index `k` (R72). -/
def Memory.read (m : Memory) (k : Nat) : Byte := (cellsRead m.cells k).getD (m.unlisted k)

/-- Write one byte. -/
def Memory.write (m : Memory) (k : Nat) (v : Byte) : Memory := { m with cells := cellsWrite k v m.cells }

/-- Write bytes at rising indices from `k`. -/
def Memory.writeAll (m : Memory) (k : Nat) : List Byte → Memory
  | [] => m
  | b :: bs => (m.write k b).writeAll (k + 1) bs

/-- The `n` bytes from index `k` on, in index order. -/
def Memory.readAll (m : Memory) (k n : Nat) : List Byte := (List.range' k n).map m.read

/-- A buffer every byte of which draw number `draw` makes unspecified. -/
def Memory.unspecified (draw : Nat) : Memory := { fill := draw, cells := [] }

/-! ## Little-endian data (R69) -/

/-- `{b_{n-1}, ..., b_1, b_0}`, zero-extended: the first byte in bits [7:0]. -/
def wordOfBytes : List Byte → Word
  | [] => 0
  | b :: bs => b.setWidth 32 ||| (wordOfBytes bs <<< 8)

/-- The bytes `v[8i+7 : 8i]` for `0 ≤ i < n`, in rising `i`. -/
def bytesOfWord (n : Nat) (v : Word) : List Byte := (List.range n).map fun i => v.extractLsb' (8 * i) 8

/-! ## The command in flight -/

/-- `STATUS.BUSY` (R37): a command is in flight. -/
def State.busy (s : State) : Bool := s.flight.isSome

/-- The snapshot R123 takes for word `w`. With `N > P_IBUF_SIZE` the rule takes no `X`: it is empty here, and nothing
reads it (DESIGN CHOICE, safe: log entry 12). Bytes not written since reset are carried on with (log entry 13). -/
def State.snapshot (w : Word) (s : State) : Flight :=
  { word := w, cfg := s.config, n := s.inLen,
    x := if s.inLen.toNat ≤ s.build.ibufSize then s.ibuf.readAll 0 s.inLen.toNat else [],
    decoder := Decoder.fresh }

/-- What a command works on: its snapshot while one is in flight, and otherwise the snapshot the live registers and
IBUF would give, so that running a command on an idle core is accepting and committing it at once (log entry 9). -/
def State.operation (s : State) : Flight := s.flight.getD (s.snapshot 0)

/-- R123: a `CMD` write with START = 1 is accepted. -/
def State.accept (w : Word) (s : State) : State :=
  { s with flight := some (s.snapshot w), done := false, err := none }

/-- Apply `f` to the decoder of the command in flight; with none in flight there is no decoder (R45), and nothing
happens (DESIGN CHOICE, safe: log entry 15). -/
def State.onDecoder (f : Decoder → Decoder) (s : State) : State :=
  { s with flight := s.flight.map fun c => { c with decoder := f c.decoder } }

/-! ## Completion -/

/-- What `EXECUTE` returns (R127). -/
inductive Result where
  | bytes (y : List Byte)
  | choice (c : Codec)
  | error (e : CmdError)
deriving DecidableEq, Repr

/-- R129: the commit of `Bytes(Y)`. OBUF from `|Y|` on keeps its value. -/
def State.commitBytes (y : List Byte) (s : State) : State :=
  { s with flight := none, done := true, err := none, outLen := BitVec.ofNat 32 y.length,
           obuf := s.obuf.writeAll 0 y }

/-- R131: the commit of `Choice(c)`. OBUF is unchanged. -/
def State.commitChoice (c : Codec) (s : State) : State :=
  { s with flight := none, done := true, err := none, outLen := 0, resultSel := c }

/-- The two errors whose commit leaves every OBUF byte unspecified (R132). -/
def CmdError.losesOutput : CmdError → Bool
  | .malformedStream => true
  | .unsupportedAlgorithm => false
  | .outputOverflow => true
  | .badLength => false
  | .illegalCommand => false

/-- Taking an error (R132, R249): the core's exception entry. Nothing is saved and there is no handler address; the
code is recorded, OUT_LEN becomes 0, and for the two errors of R132 every OBUF byte is drawn anew. There is no
return from an error (R251): the core is idle and accepts the next START. -/
def State.takeError (e : CmdError) (s : State) : State :=
  { s with flight := none, done := true, err := some e, outLen := 0,
           obuf := if e.losesOutput then Memory.unspecified s.draws else s.obuf,
           draws := if e.losesOutput then s.draws + 1 else s.draws }

/-- R128: the one step in which a command's result becomes visible. -/
def State.commit (r : Result) (s : State) : State :=
  match r with
  | .bytes y => s.commitBytes y
  | .choice c => s.commitChoice c
  | .error e => s.takeError e

/-- R130: a result longer than OBUF is an overflow, tested on the complete result. -/
def fitResult (b : Build) (r : Result) : Result :=
  match r with
  | .bytes y => if b.obufSize < y.length then .error .outputOverflow else .bytes y
  | .choice c => .choice c
  | .error e => .error e

/-- The checks of R127 around a legal command's function: the input length first (R126), the output capacity last. -/
def State.checked (s : State) (f : Flight → Result) : Result :=
  if s.build.ibufSize < s.operation.n.toNat then .error .badLength else fitResult s.build (f s.operation)

/-! ## Reset -/

/-- R270 to R272: one step, idle or busy. Every register takes its reset value, a command in flight is discarded
without a commit, and both buffers become unspecified. The build and what the environment holds (its pending inputs,
the last response it saw) are not the core's registers and stay (log entry 10). -/
def State.resetStep (s : State) : State :=
  { s with config := ConfigReg.reset, inLen := 0, flight := none, done := false, err := none, haz := false,
           outLen := 0, resultSel := .rle, ibuf := Memory.unspecified s.draws,
           obuf := Memory.unspecified (s.draws + 1), draws := s.draws + 2 }

end Sys2Proof.Machine
end

