-- ==== Sys2Proof/Machine/Flags.lean ====
section
/-! DEFINITION. The flags (R36 to R40, R43), all of them in STATUS, and the interrupt output made of one of them. -/

namespace Sys2Proof.Machine

/-- The codes of R240. -/
def CmdError.code : CmdError → BitVec 3
  | .malformedStream => 1
  | .unsupportedAlgorithm => 2
  | .outputOverflow => 3
  | .badLength => 4
  | .illegalCommand => 5

/-- `STATUS.ERR`, bits [10:8] (R39). -/
def State.errCode (s : State) : BitVec 3 :=
  match s.err with
  | none => 0
  | some e => e.code

/-- `STATUS` as a read gives it (R36): BUSY [0], DONE [1], ERR [10:8], HAZ [16], the rest 0. -/
def State.statusWord (s : State) : Word :=
  (0#15) ++ BitVec.ofBool s.haz ++ (0#5) ++ s.errCode ++ (0#6) ++ BitVec.ofBool s.done ++ BitVec.ofBool s.busy

/-- A host write of STATUS (R36, R38, R40): a 1 in bit 1 clears DONE, a 1 in bit 16 clears HAZ, all else is ignored,
at any time. -/
def State.writeStatus (v : Word) (s : State) : State :=
  { s with done := s.done && !v.getLsbD 1, haz := s.haz && !v.getLsbD 16 }

/-- A host write the core ignores because BUSY = 1 sets HAZ (R40, R122, R276). -/
def State.hazard (s : State) : State := { s with haz := true }

/-- The interrupt output, a level: `irq = STATUS.DONE AND CONFIG.IE` (R250). -/
def State.irq (s : State) : Bool := s.done && s.config.ie

end Sys2Proof.Machine
end

