-- ==== Sys2Proof/Machine/Operands.lean ====
section
/-! DEFINITION. What a bus transaction names: the address map (R63 to R66), the ten registers and their read values
(R23 to R42), and the write rule of CONFIG (R28 to R33). -/

namespace Sys2Proof.Machine

/-- The ten registers of R23. -/
inductive Reg where
  | id
  | cap
  | ibufSize
  | obufSize
  | config
  | inLen
  | cmd
  | status
  | outLen
  | result
deriving DecidableEq, Repr

/-- The offset of a register (R23). -/
def Reg.offset : Reg → Nat
  | .id => 0x00
  | .cap => 0x04
  | .ibufSize => 0x08
  | .obufSize => 0x0C
  | .config => 0x10
  | .inLen => 0x14
  | .cmd => 0x18
  | .status => 0x1C
  | .outLen => 0x20
  | .result => 0x24

/-- The register at an offset of the register block (R23, R63: register at offset `4k`). -/
def Reg.atOffset (a : Nat) : Option Reg :=
  match a with
  | 0x00 => some .id
  | 0x04 => some .cap
  | 0x08 => some .ibufSize
  | 0x0C => some .obufSize
  | 0x10 => some .config
  | 0x14 => some .inLen
  | 0x18 => some .cmd
  | 0x1C => some .status
  | 0x20 => some .outLen
  | 0x24 => some .result
  | _ => none

/-- What a transaction that gets `OK` accesses: a register, or the bytes from an index of a buffer. -/
inductive Target where
  | reg (r : Reg)
  | ibuf (k : Nat)
  | obuf (k : Nat)
deriving DecidableEq, Repr

/-- Where the regions begin and the register block ends (R63). -/
def regEnd : Nat := 0x28
def ibufBase : Nat := 0x10000
def obufBase : Nat := 0x20000

/-- A size of 1, 2 or 4 bytes at a multiple of it (R66). -/
abbrev bufferAligned (a n : Nat) : Prop := (n = 1 ∨ n = 2 ∨ n = 4) ∧ a % n = 0

/-- The address map of R63 with the access rules of R64 to R66, for `n` bytes at offset `a`. Which of several reasons an
`ERROR` has is the model's (DESIGN CHOICE, safe: log entry 18). -/
def resolve (b : Build) (a n : Nat) : Except BusError Target :=
  if a < regEnd then
    if n = 4 then
      match Reg.atOffset a with
      | some r => .ok (.reg r)
      | none => .error .registerAccess
    else .error .registerAccess
  else if ibufBase ≤ a ∧ a < ibufBase + b.ibufSize then
    if bufferAligned a n then
      if a + n ≤ ibufBase + b.ibufSize then .ok (.ibuf (a - ibufBase)) else .error .unmapped
    else .error .bufferAccess
  else if obufBase ≤ a ∧ a < obufBase + b.obufSize then
    if bufferAligned a n then
      if a + n ≤ obufBase + b.obufSize then .ok (.obuf (a - obufBase)) else .error .unmapped
    else .error .bufferAccess
  else .error .unmapped

/-- `CONFIG` as a read gives it (R28): bits [31:18] read 0 (R33). -/
def ConfigReg.word (c : ConfigReg) : Word :=
  (0#14) ++ BitVec.ofBool c.ie ++ BitVec.ofBool c.ffesc ++ c.minMatch ++ c.window

/-- What a write of `v` stores in CONFIG: MIN_MATCH becomes `max(v[15:8], 3)` (R30), bits [31:18] are ignored (R33). -/
def ConfigReg.ofWord (v : Word) : ConfigReg :=
  { window := v.extractLsb' 0 8,
    minMatch := if (v.extractLsb' 8 8).toNat < 3 then 3 else v.extractLsb' 8 8,
    ffesc := v.getLsbD 16,
    ie := v.getLsbD 17 }

/-- The constant of `ID` (R24). -/
def idWord : Word := 0x524C5A01

/-- The 32 bits a read of a register returns (R24 to R42). A read of CMD returns 0 (R35). -/
def State.readReg (r : Reg) (s : State) : Word :=
  match r with
  | .id => idWord
  | .cap => (0#30) ++ BitVec.ofBool s.build.wmOverlap ++ BitVec.ofBool s.build.hasSelector
  | .ibufSize => BitVec.ofNat 32 s.build.ibufSize
  | .obufSize => BitVec.ofNat 32 s.build.obufSize
  | .config => s.config.word
  | .inLen => s.inLen
  | .cmd => 0
  | .status => s.statusWord
  | .outLen => s.outLen
  | .result => s.resultSel.alg.setWidth 32

end Sys2Proof.Machine
end

