-- ==== Sys2Proof/Machine/Bus.lean ====
section
/-! DEFINITION. Host bus transactions (R62 to R73): what a read returns, what a write does, and what is ignored while
a command is in flight (R276). Each is one step, so it is atomic with respect to a commit (R70). -/

namespace Sys2Proof.Machine

/-- A host write to CMD (R121 to R123): no effect with START = 0; ignored with HAZ set while busy; else accepted. -/
def State.writeCmd (w : Word) (s : State) : State :=
  if cmdStart w = 0 then s
  else if s.busy then s.hazard
  else s.accept w

/-- A host write of `v` to a register, by the register's own rule. CONFIG and IN_LEN are ignored with HAZ set while
busy (R276); STATUS is taken at any time (R36); the read-only registers ignore every write (R23, D32). -/
def State.writeReg (r : Reg) (v : Word) (s : State) : State :=
  match r with
  | .id => s
  | .cap => s
  | .ibufSize => s
  | .obufSize => s
  | .config => if s.busy then s.hazard else { s with config := ConfigReg.ofWord v }
  | .inLen => if s.busy then s.hazard else { s with inLen := v }
  | .cmd => s.writeCmd v
  | .status => s.writeStatus v
  | .outLen => s
  | .result => s

/-- A host write of bytes to a buffer: ignored with HAZ set while busy (R276). -/
def State.writeIbuf (k : Nat) (bytes : List Byte) (s : State) : State :=
  if s.busy then s.hazard else { s with ibuf := s.ibuf.writeAll k bytes }

def State.writeObuf (k : Nat) (bytes : List Byte) (s : State) : State :=
  if s.busy then s.hazard else { s with obuf := s.obuf.writeAll k bytes }

/-- The bytes a host read of OBUF returns: the stored ones while idle (R72), and while busy a fresh draw for every
read (R73, I1). -/
def State.obufBytes (k n : Nat) (s : State) : List Byte :=
  if s.busy then (List.range' k n).map (Config.freeByte s.draws) else s.obuf.readAll k n

/-- A read of OBUF while busy uses up one draw; no other read has any effect (R71, R73). -/
def State.afterObufRead (s : State) : State := { s with draws := if s.busy then s.draws + 1 else s.draws }

/-- A read of `n` bytes at `t`. -/
def State.readTarget (t : Target) (n : Nat) (s : State) : Response × State :=
  match t with
  | .reg r => (.data (s.readReg r), s)
  | .ibuf k => (.data (wordOfBytes (s.ibuf.readAll k n)), s)
  | .obuf k => (.data (wordOfBytes (s.obufBytes k n)), s.afterObufRead)

/-- A write of the low `n` bytes of `v` at `t`. -/
def State.writeTarget (t : Target) (n : Nat) (v : Word) (s : State) : State :=
  match t with
  | .reg r => s.writeReg r v
  | .ibuf k => s.writeIbuf k (bytesOfWord n v)
  | .obuf k => s.writeObuf k (bytesOfWord n v)

/-- A host transaction: its response and the state after it. With the response `ERROR` nothing changes (R67). -/
def busAccess (t : Txn) (s : State) : Response × State :=
  match t with
  | .read a n =>
    match resolve s.build a n with
    | .ok target => s.readTarget target n
    | .error why => (.error why, s)
  | .write a n v =>
    match resolve s.build a n with
    | .ok target => (.ok, s.writeTarget target n v)
    | .error why => (.error why, s)

/-- The read data of a response: 0 with `ERROR` (R67). -/
def Response.readData : Response → Word
  | .ok => 0
  | .data d => d
  | .error _ => 0

/-- The host sees a response. -/
def State.respond (r : Response) (s : State) : State := { s with response := some r }

/-- How a transaction's response ends the step: an `ERROR` is a fault of the host program (R67). -/
def busOutcome (r : Response) (s : State) : Host.Outcome State Fault Refusal :=
  match r with
  | .ok => .next (s.respond .ok)
  | .data d => .next (s.respond (.data d))
  | .error why => .fault (.busError why)

/-- The no-operation a transaction writes to CMD, if it does: a write of a word with START = 0 (R121). -/
def Txn.writtenNop (t : Txn) (b : Build) : Option Instr :=
  match t with
  | .read _ _ => none
  | .write a n v =>
    match resolve b a n with
    | .ok (.reg .cmd) => if cmdStart v = 0 then some (decodeCommand b.hasSelector v) else none
    | _ => none

end Sys2Proof.Machine
end

