-- ==== Sys2Proof/Machine/Command.lean ====
section
/-! DEFINITION. The command words that run none of the five operations: the no-operation (R121) and the two kinds of
words that fail before any input is read (R124, R125). -/

namespace Sys2Proof.Machine

/-- `CMD.NOP` (R121): no effect on any state, busy or not. -/
def execCmdNop (_rest : BitVec 31) (s : State) : Host.Outcome State Fault Refusal := .next s

/-- `CMD.UNSUPPORTED_ALG` (R125, R242): commits ERR = 2; OBUF is unchanged. -/
def execCmdUnsupportedAlg (_op : Direction) (_alg : BitVec 2) (s : State) : Host.Outcome State Fault Refusal :=
  .next (s.commit (.error .unsupportedAlgorithm))

/-- `CMD.ILLEGAL` (R124, R245): commits ERR = 5; OBUF is unchanged. -/
def execCmdIllegal (_w : Word) (s : State) : Host.Outcome State Fault Refusal :=
  .next (s.commit (.error .illegalCommand))

end Sys2Proof.Machine
end

