-- ==== Sys2Proof/Machine/Tokens.lean ====
section
/-! DEFINITION. What each token does to the decoder that executes it, and the decoders' loop over a stream (R156,
R190). A token's effect is said once here: the token's own meaning and the loop of the two DEC commands both use it. -/

namespace Sys2Proof.Machine

/-- `raise MalformedStream(p)` (R11): `p` stays at the offending token, and nothing is appended. -/
def Decoder.raise (d : Decoder) : Decoder := { d with bad := true }

/-- `RLE.Literal` (R158). -/
def rleLitEffect (v : Byte) (d : Decoder) : Decoder := { d with pos := d.pos + 1, out := d.out ++ [v] }

/-- `RLE.Run` (R157): every count from 0 to 255. -/
def rleRunEffect (v c : Byte) (d : Decoder) : Decoder :=
  { d with pos := d.pos + 3, out := d.out ++ List.replicate c.toNat v }

/-- `WM.Literal` (R191). -/
def wmLitEffect (v : Byte) (d : Decoder) : Decoder := { d with pos := d.pos + 2, out := d.out ++ [v] }

/-- The copy loop of R192: `k` times append the byte `o` back from the end, so that a byte just appended is seen by
the later rounds of the same copy (R77). The index `|Y| - o` is `start + k` of the rule. -/
def copyBack (o : Nat) : Nat → List Byte → List Byte
  | 0, y => y
  | k + 1, y => copyBack o k (y ++ (y[y.length - o]?).toList)

/-- `WM.Match` (R192): an offset of 0 or beyond the output is malformed (R193); every length from 0 to 255. -/
def wmMatchEffect (o l : Byte) (d : Decoder) : Decoder :=
  if o = 0 ∨ d.out.length < o.toNat then d.raise
  else { d with pos := d.pos + 3, out := copyBack o.toNat l.toNat d.out }

/-- An unrecognised marker (R193). -/
def wmBadMarkerEffect (d : Decoder) : Decoder := d.raise

/-- The effect of a token; a command word is no token and has none on a decoder. -/
def tokenEffect (i : Instr) (d : Decoder) : Decoder :=
  match i with
  | .rleLit v => rleLitEffect v d
  | .rleRun v c => rleRunEffect v c d
  | .wmLit v => wmLitEffect v d
  | .wmMatch o l => wmMatchEffect o l d
  | .wmBadMarker _ => wmBadMarkerEffect d
  | .rleEnc => d
  | .rleDec => d
  | .wmEnc => d
  | .wmDec => d
  | .sel _ => d
  | .cmdNop _ => d
  | .cmdUnsupportedAlg _ _ => d
  | .cmdIllegal _ => d

/-- The decoder has a token to execute: it has not failed and `p < |X|`. -/
abbrev Decoder.active (x : List Byte) (d : Decoder) : Prop := d.bad = false ∧ d.pos < x.length

/-- The token at the decoder's position in the snapshot `x`. -/
def Decoder.fetch (c : Codec) (x : List Byte) (d : Decoder) : Except Reject (Instr × List Byte) :=
  decodeToken c (x.drop d.pos)

/-- One round of the loop of R156 or R190: execute the token at `p`; one that does not fit is malformed. -/
def Decoder.tokenStep (c : Codec) (x : List Byte) (d : Decoder) : Decoder :=
  match d.fetch c x with
  | .ok (i, _) => tokenEffect i d
  | .error _ => d.raise

/-- At most `fuel` rounds of the loop. Each round that does not fail advances `p` by at least 1 (R133), so `|X|` rounds reach
the end from anywhere. -/
def Decoder.run (c : Codec) (x : List Byte) : Nat → Decoder → Decoder
  | 0, d => d
  | fuel + 1, d => if d.active x then Decoder.run c x fuel (d.tokenStep c x) else d

/-- The result a decoder that has run to its end stands for. -/
def Decoder.result (d : Decoder) : Result := if d.bad then .error .malformedStream else .bytes d.out

/-- Run the decoder from where it stands to the end of the stream. -/
def Decoder.finish (c : Codec) (x : List Byte) (d : Decoder) : Result := (Decoder.run c x x.length d).result

end Sys2Proof.Machine
end

