-- ==== Sys2Proof/Machine/Rle.lean ====
section
/-! DEFINITION. The RLE family: the encoder (R150 to R155), the two commands (R163, R164) and the two tokens (R157,
R158). -/

namespace Sys2Proof.Machine

/-- R152: one chunk of `c` bytes `v` as a `Run` or as raw bytes. -/
def rleEmit (ffesc : Bool) (v : Byte) (c : Nat) : List Byte :=
  if 2 < c ∨ (ffesc = true ∧ v = 0xFF) then [0xFF, v, BitVec.ofNat 8 c] else List.replicate c v

/-- The document's scan (R150): `v` and `c` are its `current` and `count`; a differing byte, the cap of 255 or the end
of input flushes the chunk (R151). -/
def rleScan (ffesc : Bool) (v : Byte) (c : Nat) : List Byte → List Byte
  | [] => rleEmit ffesc v c
  | b :: bs => if b = v ∧ c < 255 then rleScan ffesc v (c + 1) bs else rleEmit ffesc v c ++ rleScan ffesc b 1 bs

/-- `RLE_ENC(X, FFESC)` (R150, R153). -/
def rleEnc (ffesc : Bool) : List Byte → List Byte
  | [] => []
  | b :: bs => rleScan ffesc b 1 bs

/-- `RLE_DEC(X)` (R156). -/
def rleDec (x : List Byte) : Result := Decoder.fresh.finish .rle x

/-- `RLE.ENC` (R163): reads CFG.FFESC and no other field. -/
def execRleEnc (s : State) : Host.Outcome State Fault Refusal :=
  .next (s.commit (s.checked fun f => .bytes (rleEnc f.cfg.ffesc f.x)))

/-- `RLE.DEC` (R164): the decoder goes on from where its token steps have brought it, which at a fresh one is
`RLE_DEC(X)`. -/
def execRleDec (s : State) : Host.Outcome State Fault Refusal :=
  .next (s.commit (s.checked fun f => f.decoder.finish .rle f.x))

/-- Token `RLE.LIT` (R158). -/
def execRleLit (v : Byte) (s : State) : Host.Outcome State Fault Refusal := .next (s.onDecoder (rleLitEffect v))

/-- Token `RLE.RUN` (R157). -/
def execRleRun (v c : Byte) (s : State) : Host.Outcome State Fault Refusal := .next (s.onDecoder (rleRunEffect v c))

end Sys2Proof.Machine
end

