-- ==== Sys2Proof/Machine/Selector.lean ====
section
/-! DEFINITION. The algorithm selector (R220 to R225). -/

namespace Sys2Proof.Machine

/-- R222: the number of adjacent equal pairs. -/
def repeatCount : List Byte → Nat
  | [] => 0
  | [_] => 0
  | a :: b :: rest => (if b = a then 1 else 0) + repeatCount (b :: rest)

/-- `SELECT(X)` (R220): RLE for the empty input (R221), and when `10 r > 3 n`, exactly and strictly (R223). -/
def select (x : List Byte) : Codec :=
  if x = [] then .rle else if 3 * x.length < 10 * repeatCount x then .rle else .wm

/-- `SEL` (R225): `CMD.ALG` is ignored; without the selector the word is illegal (R124). -/
def execSel (_alg : BitVec 2) (s : State) : Host.Outcome State Fault Refusal :=
  .next (s.commit (if s.build.hasSelector then s.checked fun f => .choice (select f.x) else .error .illegalCommand))

end Sys2Proof.Machine
end

