-- ==== Sys2Proof/Machine/WindowMatch.lean ====
section
/-! DEFINITION. The Window-Match family: the window search, promotion and token formatter of the encoder (R180 to
R189), the two commands (R197, R198) and the three tokens (R191 to R193). The circular history buffer of R196 is not
architectural (R46) and has no state here. -/

namespace Sys2Proof.Machine

/-- The match candidate of one position (R184): a length and the offset it was found at. -/
structure Candidate where
  len : Nat
  off : Nat
deriving DecidableEq, Repr

/-- R182, R183: extend the candidate at window position `i`, already `k` long, by at most `fuel` bytes. With `fuel`
255 at `k` = 0 the cap `k < 255` is the fuel's. -/
def wmExtend (ov : Bool) (x : List Byte) (i pos : Nat) : Nat → Nat → Nat
  | 0, k => k
  | fuel + 1, k =>
    if pos + k < x.length ∧ x[i + k]? = x[pos + k]? ∧ (ov = true ∨ i + k < pos) then wmExtend ov x i pos fuel (k + 1)
    else k

/-- The length of the candidate at window position `i`. -/
def wmMatchLen (ov : Bool) (x : List Byte) (i pos : Nat) : Nat := wmExtend ov x i pos 255 0

/-- R184: only a strictly longer candidate replaces the best. -/
def wmBetter (ov : Bool) (x : List Byte) (pos : Nat) (best : Candidate) (i : Nat) : Candidate :=
  if best.len < wmMatchLen ov x i pos then { len := wmMatchLen ov x i pos, off := pos - i } else best

/-- The window `[max(0, pos - W), pos)`, oldest position first (R181). -/
def wmWindow (w pos : Nat) : List Nat := List.range' (pos - w) (pos - (pos - w))

/-- The best candidate of a position (R181 to R184). -/
def wmSearch (ov : Bool) (w : Nat) (x : List Byte) (pos : Nat) : Candidate :=
  (wmWindow w pos).foldl (wmBetter ov x pos) { len := 0, off := 0 }

/-- R185, R186, R189 from position `pos` on, for at most `fuel` tokens. Every token advances by at least 1 when
`M ≥ 1` (R186), so `|X|` tokens reach the end. -/
def wmEncFrom (ov : Bool) (w m : Nat) (x : List Byte) : Nat → Nat → List Byte
  | 0, _ => []
  | fuel + 1, pos =>
    match x[pos]? with
    | none => []
    | some b =>
      let best := wmSearch ov w x pos
      if m ≤ best.len then
        [0x01, BitVec.ofNat 8 best.off, BitVec.ofNat 8 best.len] ++ wmEncFrom ov w m x fuel (pos + best.len)
      else [0x00, b] ++ wmEncFrom ov w m x fuel (pos + 1)

/-- `WM_ENC(X, W, M, OV)` (R180). -/
def wmEnc (w m : Byte) (ov : Bool) (x : List Byte) : List Byte := wmEncFrom ov w.toNat m.toNat x x.length 0

/-- `WM_DEC(X)` (R190). -/
def wmDec (x : List Byte) : Result := Decoder.fresh.finish .wm x

/-- `WM.ENC` (R197): reads CFG.WINDOW, CFG.MIN_MATCH and P_WM_OVERLAP; not CFG.FFESC. -/
def execWmEnc (s : State) : Host.Outcome State Fault Refusal :=
  .next (s.commit (s.checked fun f => .bytes (wmEnc f.cfg.window f.cfg.minMatch s.build.wmOverlap f.x)))

/-- `WM.DEC` (R198): as `RLE.DEC`, with the other token format. -/
def execWmDec (s : State) : Host.Outcome State Fault Refusal :=
  .next (s.commit (s.checked fun f => f.decoder.finish .wm f.x))

/-- Token `WM.LIT` (R191). -/
def execWmLit (v : Byte) (s : State) : Host.Outcome State Fault Refusal := .next (s.onDecoder (wmLitEffect v))

/-- Token `WM.MATCH` (R192). -/
def execWmMatch (o l : Byte) (s : State) : Host.Outcome State Fault Refusal := .next (s.onDecoder (wmMatchEffect o l))

/-- Token `WM.BAD_MARKER` (R193), whatever the marker byte is. -/
def execWmBadMarker (_m : Byte) (s : State) : Host.Outcome State Fault Refusal := .next (s.onDecoder wmBadMarkerEffect)

end Sys2Proof.Machine
end

