-- ==== Sys2Proof/Machine/Dispatch.lean ====
section
/-! DEFINITION. exec: one arm per constructor of Instr, each one direct call of its meaning.

A command word's meaning is its EXECUTE arm and the commit of the result (R127 to R132), on the command in flight; on
an idle core, where nothing is in flight, it works on the live registers and is the accepting step and the commit taken
at once (DESIGN CHOICE, safe: log entry 9). A token's meaning is what it does to the decoder of the command in flight. -/

namespace Sys2Proof.Machine

def exec (i : Instr) (s : State) : Host.Outcome State Fault Refusal :=
  match i with
  | .rleEnc => Sys2Proof.Machine.execRleEnc s
  | .rleDec => Sys2Proof.Machine.execRleDec s
  | .wmEnc => Sys2Proof.Machine.execWmEnc s
  | .wmDec => Sys2Proof.Machine.execWmDec s
  | .sel alg => Sys2Proof.Machine.execSel alg s
  | .cmdNop rest => Sys2Proof.Machine.execCmdNop rest s
  | .cmdUnsupportedAlg op alg => Sys2Proof.Machine.execCmdUnsupportedAlg op alg s
  | .cmdIllegal w => Sys2Proof.Machine.execCmdIllegal w s
  | .rleLit v => Sys2Proof.Machine.execRleLit v s
  | .rleRun v c => Sys2Proof.Machine.execRleRun v c s
  | .wmLit v => Sys2Proof.Machine.execWmLit v s
  | .wmMatch o l => Sys2Proof.Machine.execWmMatch o l s
  | .wmBadMarker m => Sys2Proof.Machine.execWmBadMarker m s

end Sys2Proof.Machine
end

