-- ==== Sys2Proof/Machine/Engine.lean ====
section
/-! DEFINITION. Who moves and what the move is: the host's transactions, the decoder's tokens, the commit, reset
(R74, I6, I7); and where `withFetchWord` places an instruction. -/

namespace Sys2Proof.Machine

/-- Which decoder a command word runs, if it runs one. -/
def decoderOf : Instr → Option Codec
  | .rleDec => some .rle
  | .wmDec => some .wm
  | .rleEnc => none
  | .wmEnc => none
  | .sel _ => none
  | .cmdNop _ => none
  | .cmdUnsupportedAlg _ _ => none
  | .cmdIllegal _ => none
  | .rleLit _ => none
  | .rleRun _ _ => none
  | .wmLit _ => none
  | .wmMatch _ _ => none
  | .wmBadMarker _ => none

/-- The instruction of the command in flight. -/
def Flight.instr (b : Build) (f : Flight) : Instr := decodeCommand b.hasSelector f.word

/-- The decoder the command in flight runs: that of a DEC command which passes the length check (R126). -/
def Flight.codec (b : Build) (f : Flight) : Option Codec :=
  if b.ibufSize < f.n.toNat then none else decoderOf (f.instr b)

/-- The decoder's next token, when the command in flight is a decode with a token to execute: its codec and the
command. -/
def State.tokenReady (s : State) : Option (Codec × Flight) :=
  match s.flight with
  | none => none
  | some f =>
    match f.codec s.build with
    | none => none
    | some c => if f.decoder.active f.x then some (c, f) else none

/-- The decoder executes its next token (R156, R190): fetched from the snapshot at `p`; one that does not fit raises
`MalformedStream`. Nothing happens when there is no token to execute. DESIGN CHOICE, safe: a decode moves token by token
inside its command, which no commit shows (log entry 8). -/
def tokenTurn (s : State) : Host.Outcome State Fault Refusal :=
  match s.tokenReady with
  | none => .next s
  | some (c, f) =>
    match f.decoder.fetch c f.x with
    | .ok (i, _) => exec i s
    | .error _ => .next (s.onDecoder Decoder.raise)

/-- The commit (R128): the command in flight is run to its end. Always enabled while busy (R133); nothing happens
while idle. -/
def commitTurn (s : State) : Host.Outcome State Fault Refusal :=
  match s.flight with
  | none => .next s
  | some f => exec (f.instr s.build) s

/-- The core moving on its own: the next token if its decoder has one, and else the commit; idle, it waits (R273). -/
def engineTurn (s : State) : Host.Outcome State Fault Refusal :=
  match s.tokenReady with
  | some _ => tokenTurn s
  | none => commitTurn s

/-- A host transaction. A written command word with START = 0 is run at once (R121). -/
def hostTurn (t : Txn) (s : State) : Host.Outcome State Fault Refusal :=
  match busOutcome (busAccess t s).1 (busAccess t s).2 with
  | .next s' =>
    match t.writtenNop s.build with
    | some i => exec i s'
    | none => .next s'
  | .fault r => .fault r
  | .refused r => .refused r

/-- The bus data the host saw last. -/
def State.lastData (s : State) : Word :=
  match s.response with
  | none => 0
  | some r => r.readData

/-- `POLL a, m, v` (R108): one `R32 a`; until `(data AND m) = v` the poll stays pending, with a commit between two
reads (the core's only step, under weak fairness: R133). DESIGN CHOICE, unsafe: log entry 17. -/
def pollTurn (a : Nat) (m v : Word) (s : State) : Host.Outcome State Fault Refusal :=
  match hostTurn (.read a 4) s with
  | .next s' =>
    .next { s' with pending := if s'.lastData &&& m = v then s'.pending else .commit :: .poll a m v :: s'.pending }
  | .fault r => .fault r
  | .refused r => .refused r

/-- One pending input. -/
def eventTurn (e : Event) (s : State) : Host.Outcome State Fault Refusal :=
  match e with
  | .host t => hostTurn t s
  | .poll a m v => pollTurn a m v s
  | .token => tokenTurn s
  | .commit => commitTurn s
  | .reset => .next s.resetStep

/-! ## Placing an instruction where step runs it next -/

/-- The CMD value of the DEC command of a codec (R106). -/
def decodeWord : Codec → Word
  | .rle => 0x03
  | .wm => 0x13

/-- Place an encoded instruction so that the very next step runs it (log entry 7). A word with START = 0 is the host's
next write to CMD. Any other command word is accepted, and its commit is the next input. Token bytes are loaded at
IBUF[0] with IN_LEN their number, the DEC command of their codec is accepted, and the decoder's turn is the next input. -/
def State.place (code : Code) (s : State) : State :=
  match code with
  | .command w =>
    if cmdStart w = 0 then { s with pending := .host (.write 0x18 4 w) :: s.pending }
    else { s.accept w with pending := .commit :: s.pending }
  | .stream c bytes =>
    { ({ s with ibuf := s.ibuf.writeAll 0 bytes, inLen := BitVec.ofNat 32 bytes.length }).accept (decodeWord c) with
      pending := .token :: s.pending }

end Sys2Proof.Machine
end

