-- ==== Sys2Proof/Machine/Step.lean ====
section
/-! DEFINITION. One step of the machine: the environment's next pending input, or, with none pending, the core moving
on its own. -/

namespace Sys2Proof.Machine

/-- The step (R74): steps are totally ordered; each is one host transaction, one move of the core or one reset. -/
def step (s : State) : Host.Outcome State Fault Refusal :=
  match s.pending with
  | [] => engineTurn s
  | e :: rest => eventTurn e { s with pending := rest }

/-- `s` with the instruction the table word stands for placed where the next step runs it. -/
def State.withFetchWord (s : State) (nbits w : Nat) : State :=
  match tableCode nbits w with
  | none => s
  | some code => s.place code

end Sys2Proof.Machine
end

