-- ==== Sys2Proof/Machine/HostProgram.lean ====
section
/-! DEFINITION. The host program syntax of R108, as pending inputs: a program is a list of these. -/

namespace Sys2Proof.Machine

/-- `W32 a, v`, `W16 a, v`, `W8 a, v`. -/
def w32 (a : Nat) (v : Word) : Event := .host (.write a 4 v)
def w16 (a : Nat) (v : Word) : Event := .host (.write a 2 v)
def w8 (a : Nat) (v : Word) : Event := .host (.write a 1 v)

/-- `R32 a`, `R16 a`, `R8 a`. -/
def r32 (a : Nat) : Event := .host (.read a 4)
def r16 (a : Nat) : Event := .host (.read a 2)
def r8 (a : Nat) : Event := .host (.read a 1)

/-- `LOADI k, b0 b1 ...`: `W8 0x1_0000 + k + i, b_i` for each `i`. -/
def loadi (k : Nat) : List Byte → List Event
  | [] => []
  | b :: bs => w8 (ibufBase + k) (b.setWidth 32) :: loadi (k + 1) bs

/-- `START m`: `W32 0x18, v` with `v` the CMD value of a command (R106); a token is no command and gives nothing. -/
def start (i : Instr) : List Event :=
  match encode i with
  | .command w => [w32 0x18 w]
  | .stream _ _ => []

end Sys2Proof.Machine
end

