-- ==== Sys2Proof/Machine/Reference.lean ====
section
/-! DEFINITION. The spec's own pseudocode where the model's definition has another shape: the index loop of RLE_ENC
(R150), the three loops of WM_ENC (R180), the two decoders as functions of a whole stream (R156, R190), and EXECUTE
(R127). The machine does not run these; statements say that it computes what they compute. -/

namespace Sys2Proof.Machine

namespace Reference

/-- The inner loop of R150: how long the chunk that begins at `j` is, from a count of `c` on. -/
def chunkLen (x : List Byte) (j : Nat) (v : Byte) : Nat → Nat → Nat
  | 0, c => c
  | fuel + 1, c => if j + c < x.length ∧ x[j + c]? = some v ∧ c < 255 then chunkLen x j v fuel (c + 1) else c

/-- The outer loop of R150 from position `j` on, for at most `fuel` chunks. -/
def rleEncLoop (ffesc : Bool) (x : List Byte) : Nat → Nat → List Byte
  | 0, _ => []
  | fuel + 1, j =>
    match x[j]? with
    | none => []
    | some v =>
      let c := chunkLen x j v x.length 1
      (if c > 2 ∨ (ffesc = true ∧ v = 0xFF) then [0xFF, v, BitVec.ofNat 8 c] else List.replicate c v) ++
        rleEncLoop ffesc x fuel (j + c)

/-- `RLE_ENC(X, FFESC)` as R150 writes it. -/
def rleEnc (ffesc : Bool) (x : List Byte) : List Byte := rleEncLoop ffesc x x.length 0

/-- The innermost loop of R180: how far the candidate at window position `i` extends, from `k` on. `|X|` rounds are
enough, since `pos + k < |X|` in each. -/
def candidateLoop (ov : Bool) (x : List Byte) (i pos : Nat) : Nat → Nat → Nat
  | 0, k => k
  | fuel + 1, k =>
    if k < 255 ∧ pos + k < x.length ∧ x[i + k]? = x[pos + k]? ∧ (ov = true ∨ i + k < pos)
    then candidateLoop ov x i pos fuel (k + 1) else k

/-- The `for` loop of R180 over the `left` window positions from `i` on, with its two variables `bestLen` and
`bestOff`, in that order. -/
def windowLoop (ov : Bool) (x : List Byte) (pos : Nat) : Nat → Nat → Nat × Nat → Nat × Nat
  | 0, _, best => best
  | left + 1, i, best =>
    let k := candidateLoop ov x i pos x.length 0
    windowLoop ov x pos left (i + 1) (if k > best.1 then (k, pos - i) else best)

/-- The `while` loop of R180 with its variables `pos` and `Y`, for at most `fuel` rounds. -/
def wmEncLoop (w m : Nat) (ov : Bool) (x : List Byte) : Nat → Nat → List Byte → List Byte
  | 0, _, y => y
  | fuel + 1, pos, y =>
    match x[pos]? with
    | none => y
    | some b =>
      let (bestLen, bestOff) := windowLoop ov x pos (min w pos) (pos - w) (0, 0)
      if bestLen ≥ m then
        wmEncLoop w m ov x fuel (pos + bestLen) (y ++ [0x01, BitVec.ofNat 8 bestOff, BitVec.ofNat 8 bestLen])
      else wmEncLoop w m ov x fuel (pos + 1) (y ++ [0x00, b])

/-- `WM_ENC(X, W, M, OV)` as R180 writes it. `|X|` rounds are enough for every `M` that CONFIG can hold (R186, R30). -/
def wmEnc (w m : Byte) (ov : Bool) (x : List Byte) : List Byte := wmEncLoop w.toNat m.toNat ov x x.length 0 []

/-- The chunks of R151, each a value and a length. -/
def chunksFrom (v : Byte) (c : Nat) : List Byte → List (Byte × Nat)
  | [] => [(v, c)]
  | b :: bs => if b = v ∧ c < 255 then chunksFrom v (c + 1) bs else (v, c) :: chunksFrom b 1 bs

def chunks : List Byte → List (Byte × Nat)
  | [] => []
  | b :: bs => chunksFrom b 1 bs

/-- Put bytes before a decoded rest; a failure of the rest is a failure of the whole (R132: no partial output). -/
def prependTo (bytes : List Byte) : Option (List Byte) → Option (List Byte)
  | none => none
  | some y => some (bytes ++ y)

/-- `RLE_DEC(X)` (R156) on the stream that is left; `none` is `MalformedStream`. -/
def rleDec : List Byte → Option (List Byte)
  | [] => some []
  | b :: rest =>
    if b = 0xFF then
      match rest with
      | v :: c :: rest' => prependTo (List.replicate c.toNat v) (rleDec rest')
      | _ => none
    else prependTo [b] (rleDec rest)

/-- The copy of R192 in its own index: `Y[start + k]` for `k` from `k` on, `left` times. -/
def copyLoop (start : Nat) : Nat → Nat → List Byte → List Byte
  | 0, _, y => y
  | left + 1, k, y => copyLoop start left (k + 1) (y ++ (y[start + k]?).toList)

/-- `WM_DEC(X)` (R190) on the stream that is left, after output `y`. -/
def wmDecFrom (y : List Byte) : List Byte → Option (List Byte)
  | [] => some y
  | m :: rest =>
    if m = 0x00 then
      match rest with
      | v :: rest' => wmDecFrom (y ++ [v]) rest'
      | [] => none
    else if m = 0x01 then
      match rest with
      | o :: l :: rest' =>
        if o = 0 ∨ o.toNat > y.length then none else wmDecFrom (copyLoop (y.length - o.toNat) l.toNat 0 y) rest'
      | _ => none
    else none

def wmDec (x : List Byte) : Option (List Byte) := wmDecFrom [] x

/-- A decoder's value as a result. -/
def ofDecoded : Option (List Byte) → Result
  | none => .error .malformedStream
  | some y => .bytes y

/-- `EXECUTE(WORD, CFG, N, X)` (R127). -/
def execute (b : Build) (word : Word) (cfg : ConfigReg) (n : Nat) (x : List Byte) : Result :=
  if word.extractLsb' 6 26 ≠ 0 ∨ word.extractLsb' 3 1 ≠ 0 ∨ cmdOp word = 3 ∨ (cmdOp word = 2 ∧ b.hasSelector = false)
  then .error .illegalCommand
  else if (cmdOp word = 0 ∨ cmdOp word = 1) ∧ (cmdAlg word = 2 ∨ cmdAlg word = 3) then .error .unsupportedAlgorithm
  else if b.ibufSize < n then .error .badLength
  else if cmdOp word = 2 then .choice (select x)
  else
    let r : Result :=
      if cmdOp word = 0 then
        if cmdAlg word = 0 then .bytes (rleEnc cfg.ffesc x) else .bytes (wmEnc cfg.window cfg.minMatch b.wmOverlap x)
      else if cmdAlg word = 0 then ofDecoded (rleDec x) else ofDecoded (wmDec x)
    match r with
    | .bytes y => if y.length > b.obufSize then .error .outputOverflow else .bytes y
    | .choice c => .choice c
    | .error e => .error e

/-- The repeat count of R222: the number of `i` with `1 ≤ i < |X|` and `X[i] = X[i-1]`. -/
def repeats (x : List Byte) : Nat := ((List.range' 1 (x.length - 1)).filter fun i => x[i]? = x[i - 1]?).length

end Reference

end Sys2Proof.Machine
end

