-- ==== Sys2Proof/Safety.lean ====
section
/-! DEFINITION. What claims about runs use: the invariant of the machine, and what counts as a sound host program. -/

namespace Sys2Proof.Machine

/-- A decoder stands somewhere on its run over the stream: running on gives what running from the start gives. -/
def Decoder.OnRun (c : Codec) (x : List Byte) (d : Decoder) : Prop :=
  Decoder.run c x x.length d = Decoder.run c x x.length Decoder.fresh

/-- What holds of a command in flight (R44): it was started (R123), its snapshot equals the live registers and IBUF,
DONE and ERR read 0 (R38, R39), and its decoder is on its run; a command that runs no decoder has a fresh one. -/
structure FlightInv (s : State) (f : Flight) : Prop where
  started : cmdStart f.word = 1
  cfg : f.cfg = s.config
  n : f.n = s.inLen
  x : f.x = if s.inLen.toNat ≤ s.build.ibufSize then s.ibuf.readAll 0 s.inLen.toNat else []
  done : s.done = false
  err : s.err = none
  onRun : ∀ c, f.codec s.build = some c → f.decoder.OnRun c f.x
  fresh : f.codec s.build = none → f.decoder = Decoder.fresh

/-- The invariant every step keeps, in a legal build (R6). -/
structure State.Inv (s : State) : Prop where
  build : s.build.Legal
  /-- R30: MIN_MATCH is never below 3. -/
  minMatch : 3 ≤ s.config.minMatch.toNat
  /-- The two memories are in their canonical form and hold no byte outside their buffer. -/
  ibuf : s.ibuf.wf s.build.ibufSize = true
  obuf : s.obuf.wf s.build.obufSize = true
  /-- No free draw is used before it is made. -/
  ibufDraw : s.ibuf.fill < s.draws
  obufDraw : s.obuf.fill < s.draws
  /-- R41: OUT_LEN is the length of an output that fitted. -/
  outLen : s.outLen.toNat ≤ s.build.obufSize
  flight : ∀ f, s.flight = some f → FlightInv s f

/-- A pending input that is no fault of the host program in a core of build `b` (R67). -/
def Event.sound (b : Build) (e : Event) : Bool :=
  match e with
  | .host (.read a n) => (resolve b a n).toBool
  | .host (.write a n _) => (resolve b a n).toBool
  | .poll a _ _ => (resolve b a 4).toBool
  | .token => true
  | .commit => true
  | .reset => true

/-- A host program that never gets the response `ERROR`. -/
def State.hostSound (s : State) : Bool := s.pending.all (Event.sound s.build)

/-! ## What a command leaves -/

/-- `t` is `s` after the commit of the output `y` (R128, R129): OBUF holds `y` from index 0 on and keeps every byte
from `|y|` on, OUT_LEN is `|y|`, ERR is 0, the core is idle with DONE set, and nothing else has changed. -/
def Delivered (s : State) (y : List Byte) (t : State) : Prop :=
  ∃ m : Memory,
    t = { s with flight := none, done := true, err := none, outLen := BitVec.ofNat 32 y.length, obuf := m } ∧
      ∀ k, m.read k = (y[k]?).getD (s.obuf.read k)

/-- `t` is `s` after the commit of an error (R128, R132) that leaves OBUF unchanged. -/
def FailedKeepingOutput (s : State) (e : CmdError) (t : State) : Prop :=
  t = { s with flight := none, done := true, err := some e, outLen := 0 }

/-- `t` is `s` after the commit of an error (R128, R132) that leaves every OBUF byte unspecified: a byte of one new
draw, whatever it is. -/
def FailedLosingOutput (s : State) (e : CmdError) (t : State) : Prop :=
  ∃ m : Memory,
    t = { s with flight := none, done := true, err := some e, outLen := 0, obuf := m, draws := s.draws + 1 } ∧
      ∀ k, m.read k = Config.freeByte s.draws k

end Sys2Proof.Machine
end

