-- ==== Sys2Proof/Certificates/Slice0/Obligations.lean ====
section
/-! DEFINITION. The statements for the provers. Each is about the machine, for every state, build and operand that
meets its hypotheses; the docstring names the rule it formalises. -/

open Sys2Proof Sys2Proof.Machine

/-! ## Encodings -/

/-- R106, R91 to R94: words and streams written out from the spec's encodings decode to what they stand for. -/
def Obligations.WrittenOutWordsDecode : Prop :=
  decodeCommand true 0x00000001 = .rleEnc ∧ decodeCommand true 0x00000003 = .rleDec ∧
  decodeCommand true 0x00000011 = .wmEnc ∧ decodeCommand true 0x00000013 = .wmDec ∧
  decodeCommand true 0x00000035 = .sel 3 ∧ decodeCommand false 0x00000005 = .cmdIllegal 0x00000005 ∧
  decodeCommand true 0x00000031 = .cmdUnsupportedAlg .enc 3 ∧
  decodeCommand true 0x00000029 = .cmdIllegal 0x00000029 ∧
  decodeToken .rle [0xFF, 0x41, 0x03, 0x42] = .ok (.rleRun 0x41 0x03, [0x42]) ∧
  decodeToken .rle [0x42] = .ok (.rleLit 0x42, []) ∧
  decodeToken .wm [0x00, 0x41] = .ok (.wmLit 0x41, []) ∧
  decodeToken .wm [0x01, 0x03, 0x0C] = .ok (.wmMatch 0x03 0x0C, []) ∧
  decodeToken .wm [0x41, 0x01] = .ok (.wmBadMarker 0x41, [0x01])

/-- R106: the command map by match and mask. Every word has the reading of its row, and CMD.ILLEGAL is every other
word with bit 0 = 1. -/
def Obligations.CommandMapByMatchAndMask : Prop :=
  ∀ (hasSelector : Bool) (w : Word),
    (w = 0x00000001 → decodeCommand hasSelector w = .rleEnc) ∧
    (w = 0x00000003 → decodeCommand hasSelector w = .rleDec) ∧
    (w = 0x00000011 → decodeCommand hasSelector w = .wmEnc) ∧
    (w = 0x00000013 → decodeCommand hasSelector w = .wmDec) ∧
    (hasSelector = true → w &&& 0xFFFFFFCF#32 = 0x00000005 → decodeCommand hasSelector w = .sel (cmdAlg w)) ∧
    (w &&& 0x00000001#32 = 0 → ∃ rest, decodeCommand hasSelector w = .cmdNop rest ∧ w = rest ++ 0#1) ∧
    (w &&& 0xFFFFFFED#32 = 0x00000021 →
      ∃ op, decodeCommand hasSelector w = .cmdUnsupportedAlg op (cmdAlg w) ∧ op.op = cmdOp w) ∧
    (w ≠ 0x00000001 → w ≠ 0x00000003 → w ≠ 0x00000011 → w ≠ 0x00000013 →
      (hasSelector = false ∨ w &&& 0xFFFFFFCF#32 ≠ 0x00000005) → w &&& 0x00000001#32 ≠ 0 →
      w &&& 0xFFFFFFED#32 ≠ 0x00000021 → decodeCommand hasSelector w = .cmdIllegal w)

/-- R91 to R95, R102 to R106: decoding an encoded well-formed instruction gives it back, with every operand at every
value, and a token is read the same whatever follows it in the stream (R98). -/
def Obligations.DecodeOfEncodeIsTheInstruction : Prop :=
  ∀ (hasSelector : Bool) (i : Instr), i.wf hasSelector = true → ∀ rest : List Byte,
    match encode i with
    | .command w => decodeCommand hasSelector w = i
    | .stream c bytes => decodeToken c (bytes ++ rest) = .ok (i, rest)

/-- R102, R105: no bit of a command word is dropped, and every word decodes to a well-formed instruction. -/
def Obligations.EncodeOfDecodedCommandIsTheWord : Prop :=
  ∀ (hasSelector : Bool) (w : Word),
    encode (decodeCommand hasSelector w) = .command w ∧ (decodeCommand hasSelector w).wf hasSelector = true

/-- R95 to R98, R101: a decoded token is well formed, its encoding is the bytes it was read from, the rest of the
stream begins right after it, and it is 1 or 3 bytes (RLE) or 2 or 3 bytes (Window-Match; 1 for a bad marker, which is
no token). -/
def Obligations.TokenIsReadFromItsOwnBytes : Prop :=
  ∀ (c : Codec) (x rest : List Byte) (i : Instr), decodeToken c x = .ok (i, rest) →
    ∃ bytes, encode i = .stream c bytes ∧ x = bytes ++ rest ∧ i.wf true = true ∧
      (c = .rle → bytes.length = 1 ∨ bytes.length = 3) ∧
      (c = .wm → bytes.length = 2 ∨ bytes.length = 3 ∨ ∃ m, i = .wmBadMarker m ∧ bytes = [m])

/-- R96, R97, R99: the only streams with bytes left that hold no next token are those that end inside a `Run`, a
`Literal` or a `Match`. -/
def Obligations.TokenIsRejectedExactlyWhenTruncated : Prop :=
  ∀ (b : Byte) (t : List Byte),
    ((∃ e, decodeToken .rle (b :: t) = .error e) ↔ b = 0xFF ∧ t.length < 2) ∧
    ((∃ e, decodeToken .wm (b :: t) = .error e) ↔ (b = 0x00 ∧ t.length < 1) ∨ (b = 0x01 ∧ t.length < 2))

/-! ## A step runs the decoded instruction -/

/-- R156, R190 with R21: when the decoder of the command in flight has a token to execute, the token step is `exec` of
the instruction its position decodes to, on the same state less the input used up; with no input pending the core takes
the same step by itself. That a decode moves token by token inside its command is the model's choice (log entry 8). -/
def Obligations.StepRunsTheTokenAtTheStreamPosition : Prop :=
  ∀ (s : State) (f : Flight) (c : Codec) (i : Instr) (rest : List Byte),
    s.flight = some f → f.codec s.build = some c → f.decoder.bad = false → f.decoder.pos < f.x.length →
    decodeToken c (f.x.drop f.decoder.pos) = .ok (i, rest) →
      (∀ es, s.pending = .token :: es → step s = exec i { s with pending := es }) ∧
      (s.pending = [] → step s = exec i s)

/-- R128, R133: the commit step is `exec` of the command word in flight, always enabled while busy. When it comes is an
input of the model (log entry 5). -/
def Obligations.StepRunsTheCommandInFlight : Prop :=
  ∀ (s : State) (f : Flight) (es : List Event), s.flight = some f → s.pending = .commit :: es →
    step s = exec (decodeCommand s.build.hasSelector f.word) { s with pending := es }

/-- R121: a host write to CMD with START = 0 runs the no-operation it decodes to, busy or not; besides the input used
up and the response `OK` that the host sees, the state is as before. -/
def Obligations.StepRunsTheWrittenNoOperation : Prop :=
  ∀ (s : State) (w : Word) (es : List Event), s.pending = .host (.write 0x18 4 w) :: es → w.getLsbD 0 = false →
    step s = exec (decodeCommand s.build.hasSelector w) { s with pending := es, response := some .ok } ∧
    step s = .next { s with pending := es, response := some .ok }

/-- R273: with no input pending an idle core waits. That the inputs are a list in the state is the model's choice (log
entry 5). -/
def Obligations.IdleCoreWaits : Prop :=
  ∀ s : State, s.flight = none → s.pending = [] → step s = .next s

/-! ## Tokens -/

/-- R158, R191: `RLE.Literal` appends its byte and advances by 1, `WM.Literal` appends its byte and advances by 2; the
byte of a `WM.Literal` is data, whatever it is, and neither fails. -/
def Obligations.LiteralTokensAppendTheirByte : Prop :=
  ∀ (s : State) (f : Flight) (v : Byte), s.flight = some f →
    exec (.rleLit v) s = .next { s with flight := some { f with
      decoder := { pos := f.decoder.pos + 1, out := f.decoder.out ++ [v], bad := f.decoder.bad } } } ∧
    exec (.wmLit v) s = .next { s with flight := some { f with
      decoder := { pos := f.decoder.pos + 2, out := f.decoder.out ++ [v], bad := f.decoder.bad } } }

/-- R157: `RLE.Run` appends `c` copies of `v` for every count from 0 to 255 and advances by 3. -/
def Obligations.RleRunAppendsItsCopies : Prop :=
  ∀ (s : State) (f : Flight) (v c : Byte), s.flight = some f →
    exec (.rleRun v c) s = .next { s with flight := some { f with
      decoder := { pos := f.decoder.pos + 3, out := f.decoder.out ++ List.replicate c.toNat v,
                   bad := f.decoder.bad } } }

/-- R192: `WM.Match` with an offset inside the output copies `l` bytes from `o` back and advances by 3. The copied
bytes are given one by one: byte `k` of the copy is the byte `o` before it in the output WITH the copy, so that bytes
just appended are visible to the copy itself (R77). -/
def Obligations.WmMatchCopiesByteByByte : Prop :=
  ∀ (s : State) (f : Flight) (o l : Byte), s.flight = some f → 1 ≤ o.toNat → o.toNat ≤ f.decoder.out.length →
    ∃ y : List Byte,
      exec (.wmMatch o l) s = .next { s with flight := some { f with
        decoder := { pos := f.decoder.pos + 3, out := y, bad := f.decoder.bad } } } ∧
      y.length = f.decoder.out.length + l.toNat ∧
      (∀ k, k < f.decoder.out.length → y[k]? = f.decoder.out[k]?) ∧
      (∀ k, k < l.toNat → y[f.decoder.out.length + k]? = y[f.decoder.out.length - o.toNat + k]?)

/-- R192, R193: `WM.Match` with offset 0 or an offset beyond the output raises `MalformedStream` where it stands, and
appends nothing. -/
def Obligations.WmMatchOutsideTheOutputIsMalformed : Prop :=
  ∀ (s : State) (f : Flight) (o l : Byte), s.flight = some f → (o = 0 ∨ f.decoder.out.length < o.toNat) →
    exec (.wmMatch o l) s = .next { s with flight := some { f with
      decoder := { pos := f.decoder.pos, out := f.decoder.out, bad := true } } }

/-- R193: an unrecognised marker raises `MalformedStream` where it stands. -/
def Obligations.WmBadMarkerIsMalformed : Prop :=
  ∀ (s : State) (f : Flight) (m : Byte), s.flight = some f →
    exec (.wmBadMarker m) s = .next { s with flight := some { f with
      decoder := { pos := f.decoder.pos, out := f.decoder.out, bad := true } } }

/-- R159: `RLE_DEC` fails exactly when some run of its loop reaches a 0xFF marker at `|X| - 1` or `|X| - 2`. -/
def Obligations.RleDecodeFailsExactlyOnATruncatedRun : Prop :=
  ∀ x : List Byte, rleDec x = .error .malformedStream ↔
    ∃ n, (Decoder.run .rle x n Decoder.fresh).bad = false ∧
      x[(Decoder.run .rle x n Decoder.fresh).pos]? = some 0xFF ∧
      x.length ≤ (Decoder.run .rle x n Decoder.fresh).pos + 2

/-- R193: `WM_DEC` fails exactly when its loop reaches, at a token boundary, a marker that is neither 0x00 nor 0x01, a
token that does not fit, or a `Match` with offset 0 or beyond the output; and a decode that has failed reads no more. -/
def Obligations.WmDecodeFailsExactlyOnAMalformedToken : Prop :=
  (∀ x : List Byte, wmDec x = .error .malformedStream ↔
    ∃ (n : Nat) (d : Decoder) (m : Byte), d = Decoder.run .wm x n Decoder.fresh ∧ d.bad = false ∧
      x[d.pos]? = some m ∧
      ((m ≠ 0x00 ∧ m ≠ 0x01) ∨ (m = 0x00 ∧ x.length ≤ d.pos + 1) ∨ (m = 0x01 ∧ x.length ≤ d.pos + 2) ∨
        (m = 0x01 ∧ ∃ o, x[d.pos + 1]? = some o ∧ (o = 0 ∨ d.out.length < o.toNat)))) ∧
  (∀ (x : List Byte) (n : Nat) (d : Decoder), d.bad = true → Decoder.run .wm x n d = d)

/-! ## Commands

On a busy core a command word's `exec` is its commit (R128); on an idle core, where no rule runs a word without accepting
it, it is accepting and committing at once on the live registers, the model's choice of log entry 9. -/

/-- R163 with R150, R129, R130: `RLE.ENC` on a legal length delivers the pseudocode's `RLE_ENC(X, CFG.FFESC)` where it
fits in OBUF, and overflows exactly where it does not; nothing else changes. -/
def Obligations.RleEncDeliversTheEncoding : Prop :=
  ∀ (s : State) (y : List Byte), s.operation.n.toNat ≤ s.build.ibufSize →
    y = Reference.rleEnc s.operation.cfg.ffesc s.operation.x →
    (y.length ≤ s.build.obufSize → ∃ t, exec .rleEnc s = .next t ∧ Delivered s y t) ∧
    (s.build.obufSize < y.length → ∃ t, exec .rleEnc s = .next t ∧ FailedLosingOutput s .outputOverflow t)

/-- R164 with R156, R129, R130, R132: `RLE.DEC` on a legal length delivers the pseudocode's `RLE_DEC(X)` where
that is a buffer that fits in OBUF, overflows where it does not fit, and reports a malformed stream where there is none,
wherever on its run over `X` the decoder stands (log entry 8). -/
def Obligations.RleDecDeliversTheDecoding : Prop :=
  ∀ s : State, s.operation.n.toNat ≤ s.build.ibufSize → s.operation.decoder.OnRun .rle s.operation.x →
    (∀ y, Reference.rleDec s.operation.x = some y → y.length ≤ s.build.obufSize →
      ∃ t, exec .rleDec s = .next t ∧ Delivered s y t) ∧
    (∀ y, Reference.rleDec s.operation.x = some y → s.build.obufSize < y.length →
      ∃ t, exec .rleDec s = .next t ∧ FailedLosingOutput s .outputOverflow t) ∧
    (Reference.rleDec s.operation.x = none →
      ∃ t, exec .rleDec s = .next t ∧ FailedLosingOutput s .malformedStream t)

/-- R197 with R180, R129, R130: `WM.ENC` on a legal length delivers the pseudocode's `WM_ENC(X, W, M, P_WM_OVERLAP)`, the
loops of R180 in a copy of their own, where it fits in OBUF, and overflows exactly where it does not; nothing else
changes. -/
def Obligations.WmEncDeliversTheEncoding : Prop :=
  ∀ (s : State) (y : List Byte), s.operation.n.toNat ≤ s.build.ibufSize →
    y = Reference.wmEnc s.operation.cfg.window s.operation.cfg.minMatch s.build.wmOverlap s.operation.x →
    (y.length ≤ s.build.obufSize → ∃ t, exec .wmEnc s = .next t ∧ Delivered s y t) ∧
    (s.build.obufSize < y.length → ∃ t, exec .wmEnc s = .next t ∧ FailedLosingOutput s .outputOverflow t)

/-- R198 with R190, R129, R130, R132: `WM.DEC` on a legal length delivers the pseudocode's `WM_DEC(X)` where
that is a buffer that fits in OBUF, overflows where it does not fit, and reports a malformed stream where there is none,
wherever on its run over `X` the decoder stands (log entry 8). -/
def Obligations.WmDecDeliversTheDecoding : Prop :=
  ∀ s : State, s.operation.n.toNat ≤ s.build.ibufSize → s.operation.decoder.OnRun .wm s.operation.x →
    (∀ y, Reference.wmDec s.operation.x = some y → y.length ≤ s.build.obufSize →
      ∃ t, exec .wmDec s = .next t ∧ Delivered s y t) ∧
    (∀ y, Reference.wmDec s.operation.x = some y → s.build.obufSize < y.length →
      ∃ t, exec .wmDec s = .next t ∧ FailedLosingOutput s .outputOverflow t) ∧
    (Reference.wmDec s.operation.x = none →
      ∃ t, exec .wmDec s = .next t ∧ FailedLosingOutput s .malformedStream t)

/-- R225 with R220 to R222, R131: `SEL` records RLE for the empty input or `10 r > 3 n`, else WM; OUT_LEN and ERR become 0
and OBUF is unchanged. -/
def Obligations.SelRecordsTheChoice : Prop :=
  ∀ (s : State) (alg : BitVec 2), s.build.hasSelector = true → s.operation.n.toNat ≤ s.build.ibufSize →
    exec (.sel alg) s = .next { s with
      flight := none, done := true, err := none, outLen := 0,
      resultSel := if s.operation.x = [] ∨ 10 * Reference.repeats s.operation.x > 3 * s.operation.x.length
                   then .rle else .wm }

/-- R126, R244: every legal command with `N > P_IBUF_SIZE` fails with BAD_LENGTH; OBUF is unchanged. -/
def Obligations.LegalCommandsCheckTheLength : Prop :=
  ∀ (s : State) (i : Instr), s.build.ibufSize < s.operation.n.toNat →
    (i = .rleEnc ∨ i = .rleDec ∨ i = .wmEnc ∨ i = .wmDec ∨ (s.build.hasSelector = true ∧ ∃ alg, i = .sel alg)) →
      ∃ t, exec i s = .next t ∧ FailedKeepingOutput s .badLength t

/-- R121: the no-operation has no effect on any state. -/
def Obligations.NoOperationHasNoEffect : Prop :=
  ∀ (s : State) (rest : BitVec 31), exec (.cmdNop rest) s = .next s

/-- R125, R124 with R132: a codec identifier outside {RLE, WindowMatch} commits UNSUPPORTED_ALGORITHM, and an illegal
word, `SEL` without the selector among them, commits ILLEGAL_COMMAND, whatever IN_LEN is; OUT_LEN becomes 0, OBUF and
RESULT are unchanged. -/
def Obligations.RejectedWordsCommitTheirError : Prop :=
  ∀ s : State,
    (∀ (op : Direction) (alg : BitVec 2), ∃ t, exec (.cmdUnsupportedAlg op alg) s = .next t ∧
      FailedKeepingOutput s .unsupportedAlgorithm t) ∧
    (∀ w : Word, ∃ t, exec (.cmdIllegal w) s = .next t ∧ FailedKeepingOutput s .illegalCommand t) ∧
    (s.build.hasSelector = false → ∀ alg : BitVec 2, ∃ t, exec (.sel alg) s = .next t ∧
      FailedKeepingOutput s .illegalCommand t)

/-- R123: a write to CMD with START = 1 while idle is accepted: BUSY 1, DONE 0, ERR 0, the snapshot taken; OUT_LEN,
RESULT, HAZ, IBUF and OBUF unchanged. With `IN_LEN > P_IBUF_SIZE` R123 takes no `X`; that it is empty there is the
model's choice (log entry 12). -/
def Obligations.StartWhileIdleIsAccepted : Prop :=
  ∀ (s : State) (w : Word) (es : List Event), s.flight = none → s.pending = .host (.write 0x18 4 w) :: es →
    w.getLsbD 0 = true →
      step s = .next { s with
        pending := es, response := some .ok, done := false, err := none,
        flight := some { word := w, cfg := s.config, n := s.inLen,
                         x := if s.inLen.toNat ≤ s.build.ibufSize
                              then (List.range s.inLen.toNat).map s.ibuf.read else [],
                         decoder := { pos := 0, out := [], bad := false } } }

/-- R122: a write to CMD with START = 1 while busy is ignored and sets HAZ. -/
def Obligations.StartWhileBusyIsIgnored : Prop :=
  ∀ (s : State) (f : Flight) (w : Word) (es : List Event), s.flight = some f →
    s.pending = .host (.write 0x18 4 w) :: es → w.getLsbD 0 = true →
      step s = .next { s with pending := es, response := some .ok, haz := true }

/-- R127, R128, R247: in every state that meets the invariant, whatever tokens the decoder has already executed, the
commit step commits the value of the pseudocode's EXECUTE on the snapshot, and so one error in the order of R247. -/
def Obligations.CommitStepCommitsExecute : Prop :=
  ∀ (s : State) (f : Flight) (es : List Event), s.Inv → s.flight = some f → s.pending = .commit :: es →
    step s = .next (({ s with pending := es } : State).commit
      (Reference.execute s.build f.word f.cfg f.n.toNat f.x))

/-- R133: left alone, a busy core commits the value of EXECUTE within `|X| + 1` steps of the model (the spec gives no
bound in clock cycles; log entries 5 and 8). -/
def Obligations.BusyCoreCommitsWhenLeftAlone : Prop :=
  ∀ (s : State) (f : Flight), s.Inv → s.flight = some f → s.pending = [] →
    ∃ k, k ≤ f.x.length + 1 ∧
      Host.Core.run Sys2Proof.core k s =
        .next (s.commit (Reference.execute s.build f.word f.cfg f.n.toNat f.x))

/-- R127 ("`EXECUTE` depends on nothing but its arguments and the build parameters"): two cores of one build with the
same started command in flight commit the same error code, the same output length, the same output bytes and, where the command is a `SEL`
that commits no error, the same RESULT.SEL (R131), whatever else they hold. -/
def Obligations.ResultDependsOnlyOnTheSnapshot : Prop :=
  ∀ (s s' t t' : State) (f : Flight) (es es' : List Event), s.build = s'.build → s.flight = some f →
    s'.flight = some f → f.word.getLsbD 0 = true → s.pending = .commit :: es → s'.pending = .commit :: es' →
    step s = .next t → step s' = .next t' →
      t.err = t'.err ∧ t.outLen = t'.outLen ∧ (∀ k, k < t.outLen.toNat → t.obuf.read k = t'.obuf.read k) ∧
        (cmdOp f.word = 2 → t.err = none → t.resultSel = t'.resultSel)

/-- R45, R70, R159, R193: a token step moves the decoder of the command in flight by its next token, raises
`MalformedStream` where the token does not fit, does nothing where there is no token to execute, and never changes
anything else. The token step is the model's (log entry 8). -/
def Obligations.TokenStepChangesOnlyTheDecoder : Prop :=
  ∀ (s : State) (es : List Event), s.pending = .token :: es →
    ∃ g : Flight → Decoder,
      step s = .next { s with pending := es, flight := s.flight.map fun f => { f with decoder := g f } } ∧
      ∀ f, s.flight = some f →
        (f.codec s.build = none → g f = f.decoder) ∧
        (f.decoder.bad = true ∨ f.x.length ≤ f.decoder.pos → g f = f.decoder) ∧
        (∀ c, f.codec s.build = some c → f.decoder.bad = false → f.decoder.pos < f.x.length →
          (∀ i rest, decodeToken c (f.x.drop f.decoder.pos) = .ok (i, rest) → g f = tokenEffect i f.decoder) ∧
          (∀ e, decodeToken c (f.x.drop f.decoder.pos) = .error e →
            g f = { pos := f.decoder.pos, out := f.decoder.out, bad := true }))

/-- R133, R45: the commit is enabled before and after a token step alike, and the token step does not change what it
leaves, so that splitting a decode into token steps (the model's choice, log entry 8) shows in no result. -/
def Obligations.TokenStepDoesNotChangeTheCommit : Prop :=
  ∀ (s t : State) (es : List Event), s.pending = .token :: .commit :: es → step s = .next t →
    step t = step { s with pending := .commit :: es }

/-! ## The bus -/

/-- R63 to R66: which transactions get `OK`, and what they access; every other one gets `ERROR`. -/
def Obligations.AddressMapDecides : Prop :=
  ∀ (b : Build) (a n : Nat) (target : Target), b.Legal →
    (resolve b a n = .ok target ↔
      (∃ r, target = .reg r ∧ n = 4 ∧ a = r.offset) ∨
      (∃ k, target = .ibuf k ∧ a = 0x10000 + k ∧ (n = 1 ∨ n = 2 ∨ n = 4) ∧ n ∣ a ∧ k + n ≤ b.ibufSize) ∨
      (∃ k, target = .obuf k ∧ a = 0x20000 + k ∧ (n = 1 ∨ n = 2 ∨ n = 4) ∧ n ∣ a ∧ k + n ≤ b.obufSize))

/-- R67: a transaction with the response `ERROR` changes no state and reads 0. That the step then stops with the host's
fault, where R67 and I5 let a model stop or flag it, is the model's choice (log entry 4), and so is the reason the fault
carries (log entry 18). -/
def Obligations.BusErrorChangesNothing : Prop :=
  ∀ (s : State) (a n : Nat) (v : Word) (why : BusError) (es : List Event), resolve s.build a n = .error why →
    busAccess (.read a n) s = (.error why, s) ∧ busAccess (.write a n v) s = (.error why, s) ∧
    (Response.error why).readData = 0 ∧
    (s.pending = .host (.read a n) :: es → step s = .fault (.busError why)) ∧
    (s.pending = .host (.write a n v) :: es → step s = .fault (.busError why))

/-- R65, R71: a register read returns the register's 32 bits and has no side effect; R24 to R28, R33 to R35, R41, R42:
what those bits are in every state, for each register but STATUS (StatusReadsItsFields says those). -/
def Obligations.RegisterReadHasNoSideEffect : Prop :=
  (∀ (s : State) (r : Reg) (es : List Event), s.pending = .host (.read r.offset 4) :: es →
    step s = .next { s with pending := es, response := some (.data (s.readReg r)) }) ∧
  ∀ s : State,
    s.readReg .id = 0x524C5A01 ∧
    (s.readReg .cap).getLsbD 0 = s.build.hasSelector ∧ (s.readReg .cap).getLsbD 1 = s.build.wmOverlap ∧
    (s.readReg .cap).extractLsb' 2 30 = 0 ∧
    s.readReg .ibufSize = BitVec.ofNat 32 s.build.ibufSize ∧
    s.readReg .obufSize = BitVec.ofNat 32 s.build.obufSize ∧
    (s.readReg .config).extractLsb' 0 8 = s.config.window ∧
    (s.readReg .config).extractLsb' 8 8 = s.config.minMatch ∧
    (s.readReg .config).getLsbD 16 = s.config.ffesc ∧ (s.readReg .config).getLsbD 17 = s.config.ie ∧
    (s.readReg .config).extractLsb' 18 14 = 0 ∧
    s.readReg .inLen = s.inLen ∧ s.readReg .cmd = 0 ∧ s.readReg .outLen = s.outLen ∧
    (s.resultSel = .rle → s.readReg .result = 0) ∧ (s.resultSel = .wm → s.readReg .result = 1)

/-- R69, R72: a host read of `n` bytes of IBUF, busy or not, or of OBUF while idle returns them little-endian and
zero-extended, and has no other effect. -/
def Obligations.BufferReadIsLittleEndian : Prop :=
  ∀ (s : State) (a n k : Nat) (es : List Event), s.pending = .host (.read a n) :: es →
    (resolve s.build a n = .ok (.ibuf k) → ∃ d : Word,
      step s = .next { s with pending := es, response := some (.data d) } ∧
      (∀ i, i < n → d.extractLsb' (8 * i) 8 = s.ibuf.read (k + i)) ∧ d >>> (8 * n) = 0) ∧
    (resolve s.build a n = .ok (.obuf k) → s.flight = none → ∃ d : Word,
      step s = .next { s with pending := es, response := some (.data d) } ∧
      (∀ i, i < n → d.extractLsb' (8 * i) 8 = s.obuf.read (k + i)) ∧ d >>> (8 * n) = 0)

/-- R69: a host write of `n` bytes to IBUF or OBUF while idle stores byte `i` of the value at index `k + i`, and every
other byte of both buffers keeps its value. -/
def Obligations.BufferWriteIsLittleEndian : Prop :=
  ∀ (s : State) (a n k : Nat) (v : Word) (es : List Event), s.flight = none →
    s.pending = .host (.write a n v) :: es →
    (resolve s.build a n = .ok (.ibuf k) → ∃ m : Memory,
      step s = .next { s with pending := es, response := some .ok, ibuf := m } ∧
      (∀ i, i < n → m.read (k + i) = v.extractLsb' (8 * i) 8) ∧
      ∀ j, j < k ∨ k + n ≤ j → m.read j = s.ibuf.read j) ∧
    (resolve s.build a n = .ok (.obuf k) → ∃ m : Memory,
      step s = .next { s with pending := es, response := some .ok, obuf := m } ∧
      (∀ i, i < n → m.read (k + i) = v.extractLsb' (8 * i) 8) ∧
      ∀ j, j < k ∨ k + n ≤ j → m.read j = s.obuf.read j)

/-- R73: a host read of OBUF while busy returns some data, sets no HAZ and has no other effect; the model's own draw
counter moves on (log entry 2). Nothing is said of the data. -/
def Obligations.ObufReadWhileBusyOnlyDraws : Prop :=
  ∀ (s : State) (f : Flight) (a n k : Nat) (es : List Event), s.flight = some f →
    s.pending = .host (.read a n) :: es → resolve s.build a n = .ok (.obuf k) →
      ∃ d : Word, step s = .next { s with pending := es, response := some (.data d), draws := s.draws + 1 }

/-- R276, R40: a host write to CONFIG, IN_LEN or a buffer while busy is ignored, gets `OK` and sets HAZ. -/
def Obligations.WriteWhileBusyIsIgnored : Prop :=
  ∀ (s : State) (f : Flight) (a n : Nat) (v : Word) (target : Target) (es : List Event), s.flight = some f →
    s.pending = .host (.write a n v) :: es → resolve s.build a n = .ok target →
    (target = .reg .config ∨ target = .reg .inLen ∨ (∃ k, target = .ibuf k) ∨ ∃ k, target = .obuf k) →
      step s = .next { s with pending := es, response := some .ok, haz := true }

/-- R23 to R27, R41, R42, R276: a host write to a read-only register is ignored at any time, gets `OK` and never sets
HAZ. -/
def Obligations.ReadOnlyRegistersIgnoreWrites : Prop :=
  ∀ (s : State) (r : Reg) (v : Word) (es : List Event),
    (r = .id ∨ r = .cap ∨ r = .ibufSize ∨ r = .obufSize ∨ r = .outLen ∨ r = .result) →
    s.pending = .host (.write r.offset 4 v) :: es → step s = .next { s with pending := es, response := some .ok }

/-- R28 to R33: CONFIG written while idle reads back with WINDOW, FFESC and IE as written, MIN_MATCH at least 3, and
bits [31:18] 0; nothing else changes. -/
def Obligations.ConfigReadsBackLegalised : Prop :=
  ∀ (s : State) (v : Word) (es : List Event), s.flight = none → s.pending = .host (.write 0x10 4 v) :: es →
    ∃ c : ConfigReg, step s = .next { s with pending := es, response := some .ok, config := c } ∧
      ∀ t : State, t.config = c →
        (t.readReg .config).extractLsb' 0 8 = v.extractLsb' 0 8 ∧
        ((t.readReg .config).extractLsb' 8 8).toNat = max (v.extractLsb' 8 8).toNat 3 ∧
        (t.readReg .config).getLsbD 16 = v.getLsbD 16 ∧ (t.readReg .config).getLsbD 17 = v.getLsbD 17 ∧
        (t.readReg .config).extractLsb' 18 14 = 0

/-- R34: IN_LEN holds every 32-bit value written to it while idle. -/
def Obligations.InLenHoldsEveryValue : Prop :=
  ∀ (s : State) (v : Word) (es : List Event), s.flight = none → s.pending = .host (.write 0x14 4 v) :: es →
    step s = .next { s with pending := es, response := some .ok, inLen := v }

/-- R36 to R40: the bits of STATUS; R240: the codes that ERR reads, 0 for none. -/
def Obligations.StatusReadsItsFields : Prop :=
  ∀ s : State,
    (s.readReg .status).getLsbD 0 = s.flight.isSome ∧ (s.readReg .status).getLsbD 1 = s.done ∧
    (s.readReg .status).extractLsb' 2 6 = 0 ∧ (s.readReg .status).extractLsb' 8 3 = s.errCode ∧
    (s.readReg .status).extractLsb' 11 5 = 0 ∧ (s.readReg .status).getLsbD 16 = s.haz ∧
    (s.readReg .status).extractLsb' 17 15 = 0 ∧
    (s.err = none → (s.readReg .status).extractLsb' 8 3 = 0) ∧
    (s.err = some .malformedStream → (s.readReg .status).extractLsb' 8 3 = 1) ∧
    (s.err = some .unsupportedAlgorithm → (s.readReg .status).extractLsb' 8 3 = 2) ∧
    (s.err = some .outputOverflow → (s.readReg .status).extractLsb' 8 3 = 3) ∧
    (s.err = some .badLength → (s.readReg .status).extractLsb' 8 3 = 4) ∧
    (s.err = some .illegalCommand → (s.readReg .status).extractLsb' 8 3 = 5)

/-- R36, R38, R40: a write of STATUS at any time, busy or not, clears DONE with bit 1 and HAZ with bit 16, and leaves
ERR, BUSY and everything else. -/
def Obligations.StatusWriteOneClears : Prop :=
  ∀ (s : State) (v : Word) (es : List Event), s.pending = .host (.write 0x1C 4 v) :: es →
    step s = .next { s with pending := es, response := some .ok,
                            done := if v.getLsbD 1 = true then false else s.done,
                            haz := if v.getLsbD 16 = true then false else s.haz }

/-- R250, R251: `irq` is the level DONE AND IE in every state; it is IE right after every commit, DONE right after a
host write of CONFIG while idle with bit 17 = 1, and 0 after an accepted START, a STATUS write with bit 1 = 1, a CONFIG
write with bit 17 = 0, and reset. -/
def Obligations.InterruptRisesAtCommitAndFalls : Prop :=
  ∀ (s : State) (w : Word) (r : Result),
    (s.irq = true ↔ s.done = true ∧ s.config.ie = true) ∧
    (∀ es, s.flight = none → s.pending = .host (.write 0x10 4 w) :: es → w.getLsbD 17 = true →
      ∃ t, step s = .next t ∧ t.irq = s.done) ∧
    (s.commit r).irq = s.config.ie ∧ (s.accept w).irq = false ∧ s.resetStep.irq = false ∧
    (w.getLsbD 1 = true → (s.writeReg .status w).irq = false) ∧
    (s.flight = none → w.getLsbD 17 = false → (s.writeReg .config w).irq = false)

/-! ## Reset and the invariant -/

/-- R270, R273: after power-on reset of every build, and after a reset step from every state, idle or busy, each
register reads its stated value and `irq` is 0. -/
def Obligations.ResetGivesTheStatedValues : Prop :=
  ∀ (b : Build) (s : State) (es : List Event), s.pending = .reset :: es → s.build = b →
    ∃ t, step s = .next t ∧ t.build = b ∧
      ∀ u, u = t ∨ u = State.ofBuild b →
        u.readReg .id = 0x524C5A01 ∧
        u.readReg .cap = (if b.hasSelector then 1 else 0) + (if b.wmOverlap then 2 else 0) ∧
        u.readReg .ibufSize = BitVec.ofNat 32 b.ibufSize ∧ u.readReg .obufSize = BitVec.ofNat 32 b.obufSize ∧
        u.readReg .config = 0x00000314 ∧ u.readReg .inLen = 0 ∧ u.readReg .cmd = 0 ∧ u.readReg .status = 0 ∧
        u.readReg .outLen = 0 ∧ u.readReg .result = 0 ∧ u.irq = false

/-- R271, R272: reset discards a command in flight without a commit, and each byte of both buffers is of a draw made at
this reset, whatever was stored there. The draws are the model's free values (log entry 2). -/
def Obligations.ResetDiscardsTheCommandAndTheBuffers : Prop :=
  ∀ (s : State) (es : List Event), s.pending = .reset :: es →
    ∃ t, step s = .next t ∧ t.flight = none ∧ t.done = false ∧ t.pending = es ∧
      ∀ k, t.ibuf.read k = Config.freeByte s.draws k ∧ t.obuf.read k = Config.freeByte (s.draws + 1) k

/-- R270: the power-on state of every legal build meets the invariant, `State.reset` among them. -/
def Obligations.ResetMeetsTheInvariant : Prop :=
  (∀ b : Build, b.Legal → (State.ofBuild b).Inv) ∧ State.reset.Inv

/-- Every step keeps the invariant: the snapshot of a command in flight equals the live registers and IBUF (R44), DONE
and ERR read 0 while busy (R38, R39), MIN_MATCH is at least 3 (R30), OUT_LEN is at most P_OBUF_SIZE (R41), the buffers
keep their canonical form, and the decoder stays on its run. -/
def Obligations.EveryStepKeepsTheInvariant : Prop :=
  ∀ s t : State, s.Inv → step s = .next t → t.Inv

/-- R67: a core whose pending transactions all get `OK` never faults and never refuses, and they go on doing so. Only
an `ERROR` stops the model (log entry 4). -/
def Obligations.SoundHostNeverFaults : Prop :=
  ∀ s : State, s.hostSound = true → ∃ t, step s = .next t ∧ t.hostSound = true

/-! ## The codecs -/

/-- R161: the RLE round trip. (a) With FFESC = 1 it holds for every buffer. (b) With FFESC = 0 it holds whenever every
chunk of value 0xFF has at least 3 bytes, and in particular for every buffer with no byte 0xFF. -/
def Obligations.RleRoundTrip : Prop :=
  (∀ x : List Byte, rleDec (rleEnc true x) = .bytes x) ∧
  (∀ x : List Byte, (∀ p ∈ Reference.chunks x, p.1 = 0xFF → 3 ≤ p.2) → rleDec (rleEnc false x) = .bytes x) ∧
  (∀ x : List Byte, 0xFF ∉ x → rleDec (rleEnc false x) = .bytes x)

/-- R195: the Window-Match round trip, for every window, every minimum match from 3 on and both searches. -/
def Obligations.WmRoundTrip : Prop :=
  ∀ (x : List Byte) (w m : Byte) (ov : Bool), 3 ≤ m.toNat → wmDec (wmEnc w m ov x) = .bytes x

/-- R151, R152: a maximal run of `L` equal bytes is `L / 255` chunks of 255 bytes and one of `L mod 255` if that is not
0, and the encoder's output is its chunks, each emitted by R152 on its own. -/
def Obligations.RunsSplitIntoChunks : Prop :=
  (∀ (v : Byte) (len : Nat) (rest : List Byte), 1 ≤ len → rest.head? ≠ some v →
    Reference.chunks (List.replicate len v ++ rest) =
      List.replicate (len / 255) (v, 255) ++ (if len % 255 ≠ 0 then [(v, len % 255)] else []) ++
        Reference.chunks rest) ∧
  (∀ (ffesc : Bool) (x : List Byte),
    rleEnc ffesc x = (Reference.chunks x).flatMap fun p =>
      if p.2 > 2 ∨ (ffesc = true ∧ p.1 = 0xFF) then [0xFF, p.1, BitVec.ofNat 8 p.2] else List.replicate p.2 p.1)

/-- R155: with FFESC = 0 the encoding is never longer than its input, and as long exactly when every chunk has at most
3 bytes; with FFESC = 1 it is at most 3 times as long. -/
def Obligations.RleEncodingLength : Prop :=
  ∀ x : List Byte,
    (rleEnc false x).length ≤ x.length ∧
    ((rleEnc false x).length = x.length ↔ ∀ p ∈ Reference.chunks x, p.2 ≤ 3) ∧
    (rleEnc true x).length ≤ 3 * x.length

/-- R160, R192: a decoded output is at most 85 times as long as its stream. -/
def Obligations.DecodedLengthIsBounded : Prop :=
  ∀ (c : Codec) (x y : List Byte), Decoder.fresh.finish c x = .bytes y → y.length ≤ 85 * x.length

/-- R182, R183: the candidate at a window position is the longest stretch that agrees byte by byte, up to 255 bytes, to
the end of input, and, without the overlapping search, to the position itself. -/
def Obligations.CandidateIsMaximal : Prop :=
  ∀ (ov : Bool) (x : List Byte) (i pos k : Nat), i < pos → pos ≤ x.length → k = wmMatchLen ov x i pos →
    k ≤ 255 ∧ pos + k ≤ x.length ∧ (∀ j, j < k → x[i + j]? = x[pos + j]?) ∧ (ov = false → i + k ≤ pos) ∧
    (k = 255 ∨ pos + k = x.length ∨ x[i + k]? ≠ x[pos + k]? ∨ (ov = false ∧ i + k = pos))

/-- R181, R184: the best candidate is the longest of the window, and the one at the oldest position (the largest
offset) among the longest; with none of length 1 or more it is empty. -/
def Obligations.SearchPrefersTheOldestLongest : Prop :=
  ∀ (ov : Bool) (w : Nat) (x : List Byte) (pos : Nat),
    (∀ i, pos - w ≤ i → i < pos → wmMatchLen ov x i pos ≤ (wmSearch ov w x pos).len) ∧
    (((wmSearch ov w x pos).len = 0 ∧ (wmSearch ov w x pos).off = 0) ∨
      ∃ i, pos - w ≤ i ∧ i < pos ∧ (wmSearch ov w x pos).off = pos - i ∧
        wmMatchLen ov x i pos = (wmSearch ov w x pos).len ∧ 1 ≤ (wmSearch ov w x pos).len ∧
        ∀ j, pos - w ≤ j → j < i → wmMatchLen ov x j pos < (wmSearch ov w x pos).len)

/-- R187: the ranges of a candidate that reaches `M`, so that both fields fit one byte (R189), and the same of every
`Match` the encoder writes: wherever the decoder stands on the encoder's output and finds a `Match`, it has put out the
input up to the encoder's position, and the fields are the offset and the length of the best candidate of that position,
neither truncated. Without the overlapping search no match is ever written when `W < M`. -/
def Obligations.EncoderMatchRanges : Prop :=
  (∀ (ov : Bool) (w m : Byte) (x : List Byte) (pos : Nat), 3 ≤ m.toNat → pos ≤ x.length →
    m.toNat ≤ (wmSearch ov w.toNat x pos).len →
      1 ≤ (wmSearch ov w.toNat x pos).off ∧ (wmSearch ov w.toNat x pos).off ≤ w.toNat ∧
      (wmSearch ov w.toNat x pos).len ≤ min 255 (x.length - pos) ∧
      (ov = false → (wmSearch ov w.toNat x pos).len ≤ (wmSearch ov w.toNat x pos).off ∧ m.toNat ≤ w.toNat)) ∧
  (∀ (ov : Bool) (w m o l : Byte) (x rest : List Byte) (n pos : Nat) (d : Decoder), 3 ≤ m.toNat →
    d = Decoder.run .wm (wmEnc w m ov x) n Decoder.fresh → pos = d.out.length →
    decodeToken .wm ((wmEnc w m ov x).drop d.pos) = .ok (.wmMatch o l, rest) →
      d.out = x.take pos ∧
      o.toNat = (wmSearch ov w.toNat x pos).off ∧ l.toNat = (wmSearch ov w.toNat x pos).len ∧
      1 ≤ o.toNat ∧ o.toNat ≤ w.toNat ∧ m.toNat ≤ l.toNat ∧ l.toNat ≤ min 255 (x.length - pos) ∧
      (ov = false → l.toNat ≤ o.toNat ∧ m.toNat ≤ w.toNat)) ∧
  (∀ (w m : Byte) (x : List Byte), w.toNat < m.toNat → wmEnc w m false x = x.flatMap fun b => [0x00, b])

/-- R188: the encoding is at most twice as long as its input, and exactly its literals when the window is empty. -/
def Obligations.WmEncodingLength : Prop :=
  (∀ (x : List Byte) (w m : Byte) (ov : Bool), 3 ≤ m.toNat → (wmEnc w m ov x).length ≤ 2 * x.length) ∧
  (∀ (x : List Byte) (m : Byte) (ov : Bool), 3 ≤ m.toNat → wmEnc 0 m ov x = x.flatMap fun b => [0x00, b])

/-- R223 with R222: on a non-empty input the selector picks RLE exactly when the ratio of adjacent repeats to the length
is above 3/10 as rationals, strictly; it is the comparison of two integer products, both below 2^20 for every length a
core can have (R6). -/
def Obligations.SelectorThresholdIsExact : Prop :=
  ∀ x : List Byte, x ≠ [] →
    (select x = .rle ↔ (3 : ℚ) / 10 < (Reference.repeats x : ℚ) / (x.length : ℚ)) ∧
    (select x = .rle ↔ 3 * x.length < 10 * Reference.repeats x) ∧
    (x.length ≤ 65536 → 10 * Reference.repeats x < 2 ^ 20 ∧ 3 * x.length < 2 ^ 20)
end

