-- ==== Sys2Proof/Laws/Decode.lean ====
section
/-! SUPPORT. The fields of a command word built from fields, and what decoding does on such a word and on each shape of
token. -/

namespace Sys2Proof

theorem commandWord_start (r : BitVec 26) (a : BitVec 2) (b : BitVec 1) (o : BitVec 2) (s : BitVec 1) :
    cmdStart (commandWord r a b o s) = s := by
  unfold cmdStart commandWord
  ext i hi
  simp only [BitVec.getElem_extractLsb', BitVec.getLsbD_append]
  rw [if_pos (by omega), show 0 + i = i by omega, BitVec.getLsbD_eq_getElem hi]

theorem commandWord_op (r : BitVec 26) (a : BitVec 2) (b : BitVec 1) (o : BitVec 2) (s : BitVec 1) :
    (commandWord r a b o s).extractLsb' 1 2 = o := by
  unfold commandWord
  ext i hi
  simp only [BitVec.getElem_extractLsb', BitVec.getLsbD_append]
  rw [if_neg (by omega), if_pos (by omega), show 1 + i - 1 = i by omega, BitVec.getLsbD_eq_getElem hi]

theorem commandWord_bit3 (r : BitVec 26) (a : BitVec 2) (b : BitVec 1) (o : BitVec 2) (s : BitVec 1) :
    (commandWord r a b o s).extractLsb' 3 1 = b := by
  unfold commandWord
  ext i hi
  simp only [BitVec.getElem_extractLsb', BitVec.getLsbD_append]
  rw [if_neg (by omega), if_neg (by omega), if_pos (by omega), show 3 + i - 1 - 2 = i by omega,
    BitVec.getLsbD_eq_getElem hi]

theorem commandWord_alg (r : BitVec 26) (a : BitVec 2) (b : BitVec 1) (o : BitVec 2) (s : BitVec 1) :
    (commandWord r a b o s).extractLsb' 4 2 = a := by
  unfold commandWord
  ext i hi
  simp only [BitVec.getElem_extractLsb', BitVec.getLsbD_append]
  rw [if_neg (by omega), if_neg (by omega), if_neg (by omega), if_pos (by omega),
    show 4 + i - 1 - 2 - 1 = i by omega, BitVec.getLsbD_eq_getElem hi]

theorem commandWord_reserved (r : BitVec 26) (a : BitVec 2) (b : BitVec 1) (o : BitVec 2) (s : BitVec 1) :
    (commandWord r a b o s).extractLsb' 6 26 = r := by
  unfold commandWord
  ext i hi
  simp only [BitVec.getElem_extractLsb', BitVec.getLsbD_append]
  rw [if_neg (by omega), if_neg (by omega), if_neg (by omega), if_neg (by omega),
    show 6 + i - 1 - 2 - 1 - 2 = i by omega, BitVec.getLsbD_eq_getElem hi]

/-- A word is the command word of its fields: the five fields of R102 are all of it. -/
theorem commandWord_fields (w : Word) :
    commandWord (w.extractLsb' 6 26) (w.extractLsb' 4 2) (w.extractLsb' 3 1) (w.extractLsb' 1 2) (cmdStart w) = w := by
  unfold commandWord cmdStart
  ext i hi
  simp only [BitVec.getElem_append]
  interval_cases i <;> simp

/-- Decoding by fields. -/
theorem decodeCommand_commandWord (hasSelector : Bool) (r : BitVec 26) (a : BitVec 2) (b : BitVec 1) (o : BitVec 2)
    (s : BitVec 1) :
    decodeCommand hasSelector (commandWord r a b o s) =
      if s = 0 then .cmdNop ((commandWord r a b o s).extractLsb' 1 31)
      else if r ≠ 0 ∨ b ≠ 0 ∨ o = 3 ∨ (o = 2 ∧ hasSelector = false) then .cmdIllegal (commandWord r a b o s)
      else if o = 2 then .sel a
      else if 2 ≤ a.toNat then .cmdUnsupportedAlg (if o = 0 then .enc else .dec) a
      else if o = 0 then (if a = 0 then .rleEnc else .wmEnc)
      else (if a = 0 then .rleDec else .wmDec) := by
  unfold decodeCommand illegalWord cmdOp cmdAlg
  rw [commandWord_start, commandWord_reserved, commandWord_bit3, commandWord_op, commandWord_alg]

/-- A word with START = 0 is a no-operation (R121). -/
theorem decodeCommand_nop {hasSelector : Bool} {w : Word} (h : cmdStart w = 0) :
    decodeCommand hasSelector w = .cmdNop (w.extractLsb' 1 31) := by
  rw [decodeCommand, if_pos h]

theorem decodeRle_run (v c : Byte) (rest : List Byte) :
    decodeRle (0xFF :: v :: c :: rest) = .ok (.rleRun v c, rest) := rfl

theorem decodeRle_lit {b : Byte} (h : b ≠ 0xFF) (rest : List Byte) : decodeRle (b :: rest) = .ok (.rleLit b, rest) := by
  rw [decodeRle.eq_def]
  simp only [if_neg h]

theorem decodeWm_lit (v : Byte) (rest : List Byte) : decodeWm (0x00 :: v :: rest) = .ok (.wmLit v, rest) := rfl

theorem decodeWm_match (o l : Byte) (rest : List Byte) :
    decodeWm (0x01 :: o :: l :: rest) = .ok (.wmMatch o l, rest) := rfl

theorem decodeWm_badMarker {m : Byte} (h0 : m ≠ 0x00) (h1 : m ≠ 0x01) (rest : List Byte) :
    decodeWm (m :: rest) = .ok (.wmBadMarker m, rest) := by
  rw [decodeWm.eq_def]
  simp only [if_neg h0, if_neg h1]

end Sys2Proof
end

