-- ==== Sys2Proof/Laws/State.lean ====
section
/-! SUPPORT. One lemma per field per update of State, each true by rfl, so that no later proof unfolds a record
update. -/

namespace Sys2Proof.Machine

/-! ## State.hazard -/

@[simp] theorem State.hazard_build (s : State) : s.hazard.build = s.build := rfl
@[simp] theorem State.hazard_config (s : State) : s.hazard.config = s.config := rfl
@[simp] theorem State.hazard_inLen (s : State) : s.hazard.inLen = s.inLen := rfl
@[simp] theorem State.hazard_flight (s : State) : s.hazard.flight = s.flight := rfl
@[simp] theorem State.hazard_done (s : State) : s.hazard.done = s.done := rfl
@[simp] theorem State.hazard_err (s : State) : s.hazard.err = s.err := rfl
@[simp] theorem State.hazard_haz (s : State) : s.hazard.haz = true := rfl
@[simp] theorem State.hazard_outLen (s : State) : s.hazard.outLen = s.outLen := rfl
@[simp] theorem State.hazard_resultSel (s : State) : s.hazard.resultSel = s.resultSel := rfl
@[simp] theorem State.hazard_ibuf (s : State) : s.hazard.ibuf = s.ibuf := rfl
@[simp] theorem State.hazard_obuf (s : State) : s.hazard.obuf = s.obuf := rfl
@[simp] theorem State.hazard_draws (s : State) : s.hazard.draws = s.draws := rfl
@[simp] theorem State.hazard_response (s : State) : s.hazard.response = s.response := rfl
@[simp] theorem State.hazard_pending (s : State) : s.hazard.pending = s.pending := rfl
@[simp] theorem State.hazard_busy (s : State) : s.hazard.busy = s.busy := rfl

/-! ## State.accept -/

@[simp] theorem State.accept_build (w : Word) (s : State) : (s.accept w).build = s.build := rfl
@[simp] theorem State.accept_config (w : Word) (s : State) : (s.accept w).config = s.config := rfl
@[simp] theorem State.accept_inLen (w : Word) (s : State) : (s.accept w).inLen = s.inLen := rfl
@[simp] theorem State.accept_flight (w : Word) (s : State) : (s.accept w).flight = some (s.snapshot w) := rfl
@[simp] theorem State.accept_done (w : Word) (s : State) : (s.accept w).done = false := rfl
@[simp] theorem State.accept_err (w : Word) (s : State) : (s.accept w).err = none := rfl
@[simp] theorem State.accept_haz (w : Word) (s : State) : (s.accept w).haz = s.haz := rfl
@[simp] theorem State.accept_outLen (w : Word) (s : State) : (s.accept w).outLen = s.outLen := rfl
@[simp] theorem State.accept_resultSel (w : Word) (s : State) : (s.accept w).resultSel = s.resultSel := rfl
@[simp] theorem State.accept_ibuf (w : Word) (s : State) : (s.accept w).ibuf = s.ibuf := rfl
@[simp] theorem State.accept_obuf (w : Word) (s : State) : (s.accept w).obuf = s.obuf := rfl
@[simp] theorem State.accept_draws (w : Word) (s : State) : (s.accept w).draws = s.draws := rfl
@[simp] theorem State.accept_response (w : Word) (s : State) : (s.accept w).response = s.response := rfl
@[simp] theorem State.accept_pending (w : Word) (s : State) : (s.accept w).pending = s.pending := rfl
@[simp] theorem State.accept_busy (w : Word) (s : State) : (s.accept w).busy = true := rfl

/-! ## State.onDecoder -/

@[simp] theorem State.onDecoder_build (f : Decoder → Decoder) (s : State) : (s.onDecoder f).build = s.build := rfl
@[simp] theorem State.onDecoder_config (f : Decoder → Decoder) (s : State) : (s.onDecoder f).config = s.config := rfl
@[simp] theorem State.onDecoder_inLen (f : Decoder → Decoder) (s : State) : (s.onDecoder f).inLen = s.inLen := rfl
@[simp] theorem State.onDecoder_flight (f : Decoder → Decoder) (s : State) :
    (s.onDecoder f).flight = s.flight.map fun c => { c with decoder := f c.decoder } := rfl
@[simp] theorem State.onDecoder_done (f : Decoder → Decoder) (s : State) : (s.onDecoder f).done = s.done := rfl
@[simp] theorem State.onDecoder_err (f : Decoder → Decoder) (s : State) : (s.onDecoder f).err = s.err := rfl
@[simp] theorem State.onDecoder_haz (f : Decoder → Decoder) (s : State) : (s.onDecoder f).haz = s.haz := rfl
@[simp] theorem State.onDecoder_outLen (f : Decoder → Decoder) (s : State) : (s.onDecoder f).outLen = s.outLen := rfl
@[simp] theorem State.onDecoder_resultSel (f : Decoder → Decoder) (s : State) :
    (s.onDecoder f).resultSel = s.resultSel := rfl
@[simp] theorem State.onDecoder_ibuf (f : Decoder → Decoder) (s : State) : (s.onDecoder f).ibuf = s.ibuf := rfl
@[simp] theorem State.onDecoder_obuf (f : Decoder → Decoder) (s : State) : (s.onDecoder f).obuf = s.obuf := rfl
@[simp] theorem State.onDecoder_draws (f : Decoder → Decoder) (s : State) : (s.onDecoder f).draws = s.draws := rfl
@[simp] theorem State.onDecoder_response (f : Decoder → Decoder) (s : State) :
    (s.onDecoder f).response = s.response := rfl
@[simp] theorem State.onDecoder_pending (f : Decoder → Decoder) (s : State) :
    (s.onDecoder f).pending = s.pending := rfl

/-! ## State.commitBytes -/

@[simp] theorem State.commitBytes_build (y : List Byte) (s : State) : (s.commitBytes y).build = s.build := rfl
@[simp] theorem State.commitBytes_config (y : List Byte) (s : State) : (s.commitBytes y).config = s.config := rfl
@[simp] theorem State.commitBytes_inLen (y : List Byte) (s : State) : (s.commitBytes y).inLen = s.inLen := rfl
@[simp] theorem State.commitBytes_flight (y : List Byte) (s : State) : (s.commitBytes y).flight = none := rfl
@[simp] theorem State.commitBytes_done (y : List Byte) (s : State) : (s.commitBytes y).done = true := rfl
@[simp] theorem State.commitBytes_err (y : List Byte) (s : State) : (s.commitBytes y).err = none := rfl
@[simp] theorem State.commitBytes_haz (y : List Byte) (s : State) : (s.commitBytes y).haz = s.haz := rfl
@[simp] theorem State.commitBytes_outLen (y : List Byte) (s : State) :
    (s.commitBytes y).outLen = BitVec.ofNat 32 y.length := rfl
@[simp] theorem State.commitBytes_resultSel (y : List Byte) (s : State) :
    (s.commitBytes y).resultSel = s.resultSel := rfl
@[simp] theorem State.commitBytes_ibuf (y : List Byte) (s : State) : (s.commitBytes y).ibuf = s.ibuf := rfl
@[simp] theorem State.commitBytes_obuf (y : List Byte) (s : State) :
    (s.commitBytes y).obuf = s.obuf.writeAll 0 y := rfl
@[simp] theorem State.commitBytes_draws (y : List Byte) (s : State) : (s.commitBytes y).draws = s.draws := rfl
@[simp] theorem State.commitBytes_response (y : List Byte) (s : State) :
    (s.commitBytes y).response = s.response := rfl
@[simp] theorem State.commitBytes_pending (y : List Byte) (s : State) : (s.commitBytes y).pending = s.pending := rfl
@[simp] theorem State.commitBytes_busy (y : List Byte) (s : State) : (s.commitBytes y).busy = false := rfl

/-! ## State.commitChoice -/

@[simp] theorem State.commitChoice_build (c : Codec) (s : State) : (s.commitChoice c).build = s.build := rfl
@[simp] theorem State.commitChoice_config (c : Codec) (s : State) : (s.commitChoice c).config = s.config := rfl
@[simp] theorem State.commitChoice_inLen (c : Codec) (s : State) : (s.commitChoice c).inLen = s.inLen := rfl
@[simp] theorem State.commitChoice_flight (c : Codec) (s : State) : (s.commitChoice c).flight = none := rfl
@[simp] theorem State.commitChoice_done (c : Codec) (s : State) : (s.commitChoice c).done = true := rfl
@[simp] theorem State.commitChoice_err (c : Codec) (s : State) : (s.commitChoice c).err = none := rfl
@[simp] theorem State.commitChoice_haz (c : Codec) (s : State) : (s.commitChoice c).haz = s.haz := rfl
@[simp] theorem State.commitChoice_outLen (c : Codec) (s : State) : (s.commitChoice c).outLen = 0 := rfl
@[simp] theorem State.commitChoice_resultSel (c : Codec) (s : State) : (s.commitChoice c).resultSel = c := rfl
@[simp] theorem State.commitChoice_ibuf (c : Codec) (s : State) : (s.commitChoice c).ibuf = s.ibuf := rfl
@[simp] theorem State.commitChoice_obuf (c : Codec) (s : State) : (s.commitChoice c).obuf = s.obuf := rfl
@[simp] theorem State.commitChoice_draws (c : Codec) (s : State) : (s.commitChoice c).draws = s.draws := rfl
@[simp] theorem State.commitChoice_response (c : Codec) (s : State) : (s.commitChoice c).response = s.response := rfl
@[simp] theorem State.commitChoice_pending (c : Codec) (s : State) : (s.commitChoice c).pending = s.pending := rfl
@[simp] theorem State.commitChoice_busy (c : Codec) (s : State) : (s.commitChoice c).busy = false := rfl

/-! ## State.takeError -/

@[simp] theorem State.takeError_build (e : CmdError) (s : State) : (s.takeError e).build = s.build := rfl
@[simp] theorem State.takeError_config (e : CmdError) (s : State) : (s.takeError e).config = s.config := rfl
@[simp] theorem State.takeError_inLen (e : CmdError) (s : State) : (s.takeError e).inLen = s.inLen := rfl
@[simp] theorem State.takeError_flight (e : CmdError) (s : State) : (s.takeError e).flight = none := rfl
@[simp] theorem State.takeError_done (e : CmdError) (s : State) : (s.takeError e).done = true := rfl
@[simp] theorem State.takeError_err (e : CmdError) (s : State) : (s.takeError e).err = some e := rfl
@[simp] theorem State.takeError_haz (e : CmdError) (s : State) : (s.takeError e).haz = s.haz := rfl
@[simp] theorem State.takeError_outLen (e : CmdError) (s : State) : (s.takeError e).outLen = 0 := rfl
@[simp] theorem State.takeError_resultSel (e : CmdError) (s : State) : (s.takeError e).resultSel = s.resultSel := rfl
@[simp] theorem State.takeError_ibuf (e : CmdError) (s : State) : (s.takeError e).ibuf = s.ibuf := rfl
@[simp] theorem State.takeError_obuf (e : CmdError) (s : State) :
    (s.takeError e).obuf = if e.losesOutput then Memory.unspecified s.draws else s.obuf := rfl
@[simp] theorem State.takeError_draws (e : CmdError) (s : State) :
    (s.takeError e).draws = if e.losesOutput then s.draws + 1 else s.draws := rfl
@[simp] theorem State.takeError_response (e : CmdError) (s : State) : (s.takeError e).response = s.response := rfl
@[simp] theorem State.takeError_pending (e : CmdError) (s : State) : (s.takeError e).pending = s.pending := rfl
@[simp] theorem State.takeError_busy (e : CmdError) (s : State) : (s.takeError e).busy = false := rfl

/-! ## State.resetStep -/

@[simp] theorem State.resetStep_build (s : State) : s.resetStep.build = s.build := rfl
@[simp] theorem State.resetStep_config (s : State) : s.resetStep.config = ConfigReg.reset := rfl
@[simp] theorem State.resetStep_inLen (s : State) : s.resetStep.inLen = 0 := rfl
@[simp] theorem State.resetStep_flight (s : State) : s.resetStep.flight = none := rfl
@[simp] theorem State.resetStep_done (s : State) : s.resetStep.done = false := rfl
@[simp] theorem State.resetStep_err (s : State) : s.resetStep.err = none := rfl
@[simp] theorem State.resetStep_haz (s : State) : s.resetStep.haz = false := rfl
@[simp] theorem State.resetStep_outLen (s : State) : s.resetStep.outLen = 0 := rfl
@[simp] theorem State.resetStep_resultSel (s : State) : s.resetStep.resultSel = .rle := rfl
@[simp] theorem State.resetStep_ibuf (s : State) : s.resetStep.ibuf = Memory.unspecified s.draws := rfl
@[simp] theorem State.resetStep_obuf (s : State) : s.resetStep.obuf = Memory.unspecified (s.draws + 1) := rfl
@[simp] theorem State.resetStep_draws (s : State) : s.resetStep.draws = s.draws + 2 := rfl
@[simp] theorem State.resetStep_response (s : State) : s.resetStep.response = s.response := rfl
@[simp] theorem State.resetStep_pending (s : State) : s.resetStep.pending = s.pending := rfl
@[simp] theorem State.resetStep_busy (s : State) : s.resetStep.busy = false := rfl

/-! ## State.writeStatus -/

@[simp] theorem State.writeStatus_build (v : Word) (s : State) : (s.writeStatus v).build = s.build := rfl
@[simp] theorem State.writeStatus_config (v : Word) (s : State) : (s.writeStatus v).config = s.config := rfl
@[simp] theorem State.writeStatus_inLen (v : Word) (s : State) : (s.writeStatus v).inLen = s.inLen := rfl
@[simp] theorem State.writeStatus_flight (v : Word) (s : State) : (s.writeStatus v).flight = s.flight := rfl
@[simp] theorem State.writeStatus_done (v : Word) (s : State) :
    (s.writeStatus v).done = (s.done && !v.getLsbD 1) := rfl
@[simp] theorem State.writeStatus_err (v : Word) (s : State) : (s.writeStatus v).err = s.err := rfl
@[simp] theorem State.writeStatus_haz (v : Word) (s : State) : (s.writeStatus v).haz = (s.haz && !v.getLsbD 16) := rfl
@[simp] theorem State.writeStatus_outLen (v : Word) (s : State) : (s.writeStatus v).outLen = s.outLen := rfl
@[simp] theorem State.writeStatus_resultSel (v : Word) (s : State) : (s.writeStatus v).resultSel = s.resultSel := rfl
@[simp] theorem State.writeStatus_ibuf (v : Word) (s : State) : (s.writeStatus v).ibuf = s.ibuf := rfl
@[simp] theorem State.writeStatus_obuf (v : Word) (s : State) : (s.writeStatus v).obuf = s.obuf := rfl
@[simp] theorem State.writeStatus_draws (v : Word) (s : State) : (s.writeStatus v).draws = s.draws := rfl
@[simp] theorem State.writeStatus_response (v : Word) (s : State) : (s.writeStatus v).response = s.response := rfl
@[simp] theorem State.writeStatus_pending (v : Word) (s : State) : (s.writeStatus v).pending = s.pending := rfl
@[simp] theorem State.writeStatus_busy (v : Word) (s : State) : (s.writeStatus v).busy = s.busy := rfl

/-! ## State.afterObufRead -/

@[simp] theorem State.afterObufRead_build (s : State) : s.afterObufRead.build = s.build := rfl
@[simp] theorem State.afterObufRead_config (s : State) : s.afterObufRead.config = s.config := rfl
@[simp] theorem State.afterObufRead_inLen (s : State) : s.afterObufRead.inLen = s.inLen := rfl
@[simp] theorem State.afterObufRead_flight (s : State) : s.afterObufRead.flight = s.flight := rfl
@[simp] theorem State.afterObufRead_done (s : State) : s.afterObufRead.done = s.done := rfl
@[simp] theorem State.afterObufRead_err (s : State) : s.afterObufRead.err = s.err := rfl
@[simp] theorem State.afterObufRead_haz (s : State) : s.afterObufRead.haz = s.haz := rfl
@[simp] theorem State.afterObufRead_outLen (s : State) : s.afterObufRead.outLen = s.outLen := rfl
@[simp] theorem State.afterObufRead_resultSel (s : State) : s.afterObufRead.resultSel = s.resultSel := rfl
@[simp] theorem State.afterObufRead_ibuf (s : State) : s.afterObufRead.ibuf = s.ibuf := rfl
@[simp] theorem State.afterObufRead_obuf (s : State) : s.afterObufRead.obuf = s.obuf := rfl
@[simp] theorem State.afterObufRead_draws (s : State) :
    s.afterObufRead.draws = if s.busy then s.draws + 1 else s.draws := rfl
@[simp] theorem State.afterObufRead_response (s : State) : s.afterObufRead.response = s.response := rfl
@[simp] theorem State.afterObufRead_pending (s : State) : s.afterObufRead.pending = s.pending := rfl
@[simp] theorem State.afterObufRead_busy (s : State) : s.afterObufRead.busy = s.busy := rfl

/-! ## State.respond -/

@[simp] theorem State.respond_build (r : Response) (s : State) : (s.respond r).build = s.build := rfl
@[simp] theorem State.respond_config (r : Response) (s : State) : (s.respond r).config = s.config := rfl
@[simp] theorem State.respond_inLen (r : Response) (s : State) : (s.respond r).inLen = s.inLen := rfl
@[simp] theorem State.respond_flight (r : Response) (s : State) : (s.respond r).flight = s.flight := rfl
@[simp] theorem State.respond_done (r : Response) (s : State) : (s.respond r).done = s.done := rfl
@[simp] theorem State.respond_err (r : Response) (s : State) : (s.respond r).err = s.err := rfl
@[simp] theorem State.respond_haz (r : Response) (s : State) : (s.respond r).haz = s.haz := rfl
@[simp] theorem State.respond_outLen (r : Response) (s : State) : (s.respond r).outLen = s.outLen := rfl
@[simp] theorem State.respond_resultSel (r : Response) (s : State) : (s.respond r).resultSel = s.resultSel := rfl
@[simp] theorem State.respond_ibuf (r : Response) (s : State) : (s.respond r).ibuf = s.ibuf := rfl
@[simp] theorem State.respond_obuf (r : Response) (s : State) : (s.respond r).obuf = s.obuf := rfl
@[simp] theorem State.respond_draws (r : Response) (s : State) : (s.respond r).draws = s.draws := rfl
@[simp] theorem State.respond_response (r : Response) (s : State) : (s.respond r).response = some r := rfl
@[simp] theorem State.respond_pending (r : Response) (s : State) : (s.respond r).pending = s.pending := rfl
@[simp] theorem State.respond_busy (r : Response) (s : State) : (s.respond r).busy = s.busy := rfl

@[simp] theorem State.onDecoder_busy (f : Decoder → Decoder) (s : State) : (s.onDecoder f).busy = s.busy := by
  simp [State.busy]

/-! ## State.commit -/

@[simp] theorem State.commit_bytes (y : List Byte) (s : State) : s.commit (.bytes y) = s.commitBytes y := rfl
@[simp] theorem State.commit_choice (c : Codec) (s : State) : s.commit (.choice c) = s.commitChoice c := rfl
@[simp] theorem State.commit_error (e : CmdError) (s : State) : s.commit (.error e) = s.takeError e := rfl

end Sys2Proof.Machine
end

