-- ==== Sys2Proof/Laws/Decoder.lean ====
section
/-! SUPPORT. What one round of a decoder's loop can do, and that a run is a matter of rounds, not of fuel. -/

namespace Sys2Proof.Machine

@[simp] theorem Decoder.raise_bad (d : Decoder) : d.raise.bad = true := rfl
@[simp] theorem Decoder.raise_pos (d : Decoder) : d.raise.pos = d.pos := rfl
@[simp] theorem Decoder.raise_out (d : Decoder) : d.raise.out = d.out := rfl

theorem Decoder.raise_not_active (d : Decoder) (x : List Byte) : ¬ d.raise.active x := fun h => Bool.noConfusion h.1

/-- The meaning of a token is its effect on the decoder of the command in flight. -/
theorem exec_token {c : Codec} {x rest : List Byte} {i : Instr} (h : decodeToken c x = .ok (i, rest)) (s : State) :
    exec i s = .next (s.onDecoder (tokenEffect i)) := by
  cases c <;> simp only [decodeToken] at h
  · cases x with
    | nil => simp [decodeRle] at h
    | cons b t =>
      simp only [decodeRle] at h
      split at h
      · split at h
        · cases h; rfl
        · cases h
      · cases h; rfl
  · cases x with
    | nil => simp [decodeWm] at h
    | cons b t =>
      simp only [decodeWm] at h
      split at h
      · split at h
        · cases h; rfl
        · cases h
      · split at h
        · split at h
          · cases h; rfl
          · cases h
        · cases h; rfl

/-- A round on a token that fits is the token's effect. -/
theorem Decoder.tokenStep_ok {c : Codec} {x rest : List Byte} {d : Decoder} {i : Instr}
    (h : decodeToken c (x.drop d.pos) = .ok (i, rest)) : d.tokenStep c x = tokenEffect i d := by
  simp only [Decoder.tokenStep, Decoder.fetch, h]

/-- A round on a token that does not fit is malformed (R159, R193). -/
theorem Decoder.tokenStep_error {c : Codec} {x : List Byte} {d : Decoder} {e : Reject}
    (h : decodeToken c (x.drop d.pos) = .error e) : d.tokenStep c x = d.raise := by
  simp only [Decoder.tokenStep, Decoder.fetch, h]

/-- A round either fails where it stands or advances by the length of the token it consumed, within the stream. -/
theorem Decoder.tokenStep_cases (c : Codec) (x : List Byte) (d : Decoder) (h : d.active x) :
    d.tokenStep c x = d.raise ∨
      ((d.tokenStep c x).bad = false ∧ d.pos < (d.tokenStep c x).pos ∧ (d.tokenStep c x).pos ≤ x.length) := by
  obtain ⟨hb, hp⟩ := h
  unfold Decoder.tokenStep Decoder.fetch
  have hl : (x.drop d.pos).length = x.length - d.pos := List.length_drop
  generalize x.drop d.pos = l at hl
  cases c <;> simp only [decodeToken]
  · match l with
    | [] => simp only [decodeRle]; exact .inl trivial
    | b :: t =>
      simp only [decodeRle]
      split_ifs with hb'
      · match t with
        | v :: c :: t' =>
          simp only [List.length_cons] at hl
          exact .inr ⟨hb, by simp [tokenEffect, rleRunEffect], by simp [tokenEffect, rleRunEffect]; omega⟩
        | [] => exact .inl rfl
        | [_] => exact .inl rfl
      · simp only [List.length_cons] at hl
        exact .inr ⟨hb, by simp [tokenEffect, rleLitEffect], by simp [tokenEffect, rleLitEffect]; omega⟩
  · match l with
    | [] => simp only [decodeWm]; exact .inl trivial
    | b :: t =>
      simp only [decodeWm]
      split_ifs with h0 h1
      · match t with
        | v :: t' =>
          simp only [List.length_cons] at hl
          exact .inr ⟨hb, by simp [tokenEffect, wmLitEffect], by simp [tokenEffect, wmLitEffect]; omega⟩
        | [] => exact .inl rfl
      · match t with
        | o :: l :: t' =>
          simp only [List.length_cons] at hl
          simp only [tokenEffect, wmMatchEffect]
          split_ifs
          · exact .inl rfl
          · exact .inr ⟨hb, by simp, by simp; omega⟩
        | [] => exact .inl rfl
        | [_] => exact .inl rfl
      · exact .inl rfl

/-- A decoder with no token to execute stays as it is. -/
theorem Decoder.run_inactive (c : Codec) (x : List Byte) (n : Nat) {d : Decoder} (h : ¬ d.active x) :
    Decoder.run c x n d = d := by
  cases n with
  | zero => rfl
  | succ n => rw [Decoder.run, if_neg h]

theorem Decoder.run_active (c : Codec) (x : List Byte) (n : Nat) {d : Decoder} (h : d.active x) :
    Decoder.run c x (n + 1) d = Decoder.run c x n (d.tokenStep c x) := by
  rw [Decoder.run, if_pos h]

/-- A run that has failed has the result it failed with. -/
theorem Decoder.run_raise (c : Codec) (x : List Byte) (n : Nat) (d : Decoder) :
    (Decoder.run c x n d.raise).result = .error .malformedStream := by
  rw [Decoder.run_inactive _ _ _ (d.raise_not_active x)]
  rfl

/-- At the end of the stream the result is the output (R156, R190). -/
theorem Decoder.run_end (c : Codec) (x : List Byte) (n : Nat) {d : Decoder} (hb : d.bad = false)
    (h : x.length ≤ d.pos) : (Decoder.run c x n d).result = .bytes d.out := by
  rw [Decoder.run_inactive _ _ _ (fun ha => absurd ha.2 (by omega)), Decoder.result, hb]
  rfl

/-- More rounds than bytes are left change nothing. -/
theorem Decoder.run_fuel (c : Codec) (x : List Byte) (n : Nat) (d : Decoder) (h : x.length ≤ d.pos + n) :
    Decoder.run c x (n + 1) d = Decoder.run c x n d := by
  induction n generalizing d with
  | zero =>
    rw [Decoder.run_inactive, Decoder.run]
    intro ha; exact absurd ha.2 (by omega)
  | succ n ih =>
    by_cases ha : d.active x
    · rw [Decoder.run_active _ _ _ ha, Decoder.run_active _ _ _ ha]
      rcases Decoder.tokenStep_cases c x d ha with e | ⟨_, hlt, _⟩
      · have hi : ¬ (d.tokenStep c x).active x := by rw [e]; exact d.raise_not_active x
        rw [Decoder.run_inactive _ _ _ hi, Decoder.run_inactive _ _ _ hi]
      · exact ih _ (by omega)
    · rw [Decoder.run_inactive _ _ _ ha, Decoder.run_inactive _ _ _ ha]

/-- A token step does not change where the run ends. -/
theorem Decoder.run_tokenStep (c : Codec) (x : List Byte) {d : Decoder} (ha : d.active x) :
    Decoder.run c x x.length (d.tokenStep c x) = Decoder.run c x x.length d := by
  obtain ⟨n, hn⟩ : ∃ n, x.length = n + 1 := ⟨x.length - 1, by have := ha.2; omega⟩
  have e : Decoder.run c x x.length d = Decoder.run c x n (d.tokenStep c x) := by
    rw [hn, Decoder.run, if_pos ha]
  rw [e]
  rcases Decoder.tokenStep_cases c x d ha with e | ⟨_, hlt, _⟩
  · have hi : ¬ (d.tokenStep c x).active x := by rw [e]; exact d.raise_not_active x
    rw [Decoder.run_inactive _ _ _ hi, Decoder.run_inactive _ _ _ hi]
  · rw [hn, Decoder.run_fuel c x n _ (by omega)]

/-- Where a run ends there is no token left to execute. -/
theorem Decoder.run_not_active (c : Codec) (x : List Byte) (n : Nat) (d : Decoder) (h : x.length ≤ d.pos + n) :
    ¬ (Decoder.run c x n d).active x := by
  induction n generalizing d with
  | zero => rw [Decoder.run]; intro ha; exact absurd ha.2 (by omega)
  | succ n ih =>
    by_cases ha : d.active x
    · rw [Decoder.run, if_pos ha]
      rcases Decoder.tokenStep_cases c x d ha with e | ⟨_, hlt, _⟩
      · have hi : ¬ (d.tokenStep c x).active x := by rw [e]; exact d.raise_not_active x
        rw [Decoder.run_inactive _ _ _ hi]; exact hi
      · exact ih _ (by omega)
    · rw [Decoder.run_inactive _ _ _ ha]; exact ha

end Sys2Proof.Machine
end

