-- ==== Sys2Proof/Laws/Memory.lean ====
section
/-! SUPPORT. The laws of the byte memories: a read after a write, and that every operation keeps the canonical form. -/

namespace Sys2Proof.Machine

theorem cellsRead_cellsWrite (k : Nat) (v : Byte) (cells : List Host.Cell) (j : Nat) :
    cellsRead (cellsWrite k v cells) j = if j = k then some v else cellsRead cells j := by
  induction cells with
  | nil => simp only [cellsWrite, cellsRead]; split <;> split <;> simp_all
  | cons c rest ih =>
    obtain ⟨a, b⟩ := c
    simp only [cellsWrite]
    split
    · simp only [cellsRead]; repeat' split
      all_goals first | rfl | omega
    · split
      · simp only [cellsRead]; repeat' split
        all_goals first | rfl | omega
      · simp only [cellsRead, ih]; repeat' split
        all_goals first | rfl | omega

/-- Reading back: the byte written, and every other byte as before. -/
theorem Memory.read_write (m : Memory) (k : Nat) (v : Byte) (j : Nat) :
    (m.write k v).read j = if j = k then v else m.read j := by
  simp only [Memory.read, Memory.write, Memory.unlisted, cellsRead_cellsWrite]
  split <;> rfl

/-- Reading after writing several bytes: inside them the byte written there, outside them as before. -/
theorem Memory.read_writeAll (bytes : List Byte) (m : Memory) (k j : Nat) :
    (m.writeAll k bytes).read j = if k ≤ j then (bytes[j - k]?).getD (m.read j) else m.read j := by
  induction bytes generalizing m k with
  | nil => simp [Memory.writeAll]
  | cons b bs ih =>
    rw [Memory.writeAll, ih, Memory.read_write]
    by_cases h : k + 1 ≤ j
    · have : j - k = (j - (k + 1)) + 1 := by omega
      rw [if_pos h, if_pos (by omega : k ≤ j), if_neg (by omega : ¬ j = k), this, List.getElem?_cons_succ]
    · rw [if_neg h]
      by_cases e : j = k
      · subst e; simp
      · rw [if_neg e, if_neg (by omega)]

@[simp] theorem Memory.write_fill (m : Memory) (k : Nat) (v : Byte) : (m.write k v).fill = m.fill := rfl

@[simp] theorem Memory.writeAll_fill (bytes : List Byte) (m : Memory) (k : Nat) :
    (m.writeAll k bytes).fill = m.fill := by
  induction bytes generalizing m k with
  | nil => rfl
  | cons b bs ih => rw [Memory.writeAll, ih, Memory.write_fill]

@[simp] theorem Memory.unspecified_fill (d : Nat) : (Memory.unspecified d).fill = d := rfl

/-- A fresh draw lists nothing, so it is in canonical form. -/
@[simp] theorem Memory.unspecified_wf (d size : Nat) : (Memory.unspecified d).wf size = true := rfl

/-- Every index of a rising list after the first is above the first. -/
theorem cellsRising_cons {size a : Nat} {b : Byte} {rest : List Host.Cell} :
    cellsRising size ((a, b) :: rest) = true ↔
      a < size ∧ cellsRising size rest = true ∧ ∀ c ∈ rest.head?, a < c.1 := by
  cases rest with
  | nil => simp [cellsRising]
  | cons c rest =>
    obtain ⟨a', b'⟩ := c
    simp only [cellsRising, Bool.and_eq_true, decide_eq_true_eq, List.head?_cons, Option.mem_def, Option.some.injEq,
      forall_eq']
    refine ⟨fun ⟨h, r⟩ => ⟨?_, r, h⟩, fun ⟨_, r, h⟩ => ⟨h, r⟩⟩
    have : a' < size := by
      cases rest with
      | nil => simpa [cellsRising] using r
      | cons c rest =>
        clear h
        have key : ∀ (l : List Host.Cell) (a : Nat) (b : Byte), cellsRising size ((a, b) :: l) = true → a < size := by
          intro l
          induction l with
          | nil => intro a b h; simpa [cellsRising] using h
          | cons c l ih =>
            intro a b h
            obtain ⟨a1, b1⟩ := c
            simp only [cellsRising, Bool.and_eq_true, decide_eq_true_eq] at h
            exact lt_trans h.1 (ih a1 b1 h.2)
        exact key _ _ _ r
    omega

theorem cellsWrite_head? {k : Nat} {v : Byte} {cells : List Host.Cell} {a : Nat} (hk : a < k)
    (h : ∀ c ∈ cells.head?, a < c.1) : ∀ c ∈ (cellsWrite k v cells).head?, a < c.1 := by
  cases cells with
  | nil => simpa [cellsWrite] using hk
  | cons c rest =>
    obtain ⟨a', b'⟩ := c
    simp only [cellsWrite]
    split
    · simpa using hk
    · split
      · simpa using hk
      · simpa using h

theorem cellsWrite_rising {size k : Nat} {v : Byte} {cells : List Host.Cell} (hk : k < size)
    (h : cellsRising size cells = true) : cellsRising size (cellsWrite k v cells) = true := by
  induction cells with
  | nil => simpa [cellsWrite, cellsRising] using hk
  | cons c rest ih =>
    obtain ⟨a, b⟩ := c
    rw [cellsRising_cons] at h
    simp only [cellsWrite]
    split
    · rw [cellsRising_cons, cellsRising_cons]
      exact ⟨hk, h, by simpa⟩
    · split
      · subst_vars; rw [cellsRising_cons]; exact h
      · rw [cellsRising_cons]
        exact ⟨h.1, ih h.2.1, cellsWrite_head? (by omega) h.2.2⟩

/-- A write inside the buffer keeps the canonical form. -/
theorem Memory.write_wf {size k : Nat} {v : Byte} {m : Memory} (hk : k < size) (h : m.wf size = true) :
    (m.write k v).wf size = true := cellsWrite_rising hk h

theorem Memory.writeAll_wf {size : Nat} {bytes : List Byte} {m : Memory} {k : Nat} (hk : k + bytes.length ≤ size)
    (h : m.wf size = true) : (m.writeAll k bytes).wf size = true := by
  induction bytes generalizing m k with
  | nil => exact h
  | cons b bs ih =>
    rw [List.length_cons] at hk
    exact ih (by omega) (Memory.write_wf (by omega) h)

/-- Both buffers of every build are in canonical form at power-on, those of `State.reset` among them. -/
theorem State.ofBuild_wf (b : Build) :
    (State.ofBuild b).ibuf.wf b.ibufSize = true ∧ (State.ofBuild b).obuf.wf b.obufSize = true := ⟨rfl, rfl⟩

@[simp] theorem Memory.readAll_length (m : Memory) (k n : Nat) : (m.readAll k n).length = n := by
  simp [Memory.readAll]

theorem Memory.readAll_getElem? (m : Memory) (k n i : Nat) :
    (m.readAll k n)[i]? = if i < n then some (m.read (k + i)) else none := by
  simp only [Memory.readAll, List.getElem?_map]
  split
  · rename_i h
    rw [List.getElem?_eq_getElem (by simpa using h)]
    simp
  · rename_i h
    rw [List.getElem?_eq_none (by simpa using h)]
    rfl

@[simp] theorem bytesOfWord_length (n : Nat) (v : Word) : (bytesOfWord n v).length = n := by
  simp [bytesOfWord]

/-! ## Little-endian words (R69) -/

/-- Bit `j` of byte `i` of a word made of at most four bytes. -/
theorem wordOfBytes_getLsbD (bytes : List Byte) (i j : Nat) (hj : j < 8) (hl : bytes.length ≤ 4)
    (hi : i < bytes.length) : (wordOfBytes bytes).getLsbD (8 * i + j) = (bytes.getD i 0).getLsbD j := by
  induction bytes generalizing i with
  | nil => simp at hi
  | cons b bs ih =>
    simp only [List.length_cons] at hl hi
    simp only [wordOfBytes, BitVec.getLsbD_or, BitVec.getLsbD_shiftLeft, BitVec.getLsbD_setWidth]
    cases i with
    | zero => simp [hj]; omega
    | succ i =>
      have h := ih i (by omega) (by omega)
      have hb : b.getLsbD (8 * (i + 1) + j) = false := BitVec.getLsbD_of_ge _ _ (by omega)
      simp only [show 8 * (i + 1) + j - 8 = 8 * i + j by omega, h]
      simp [hb]
      intro _
      omega

/-- A word made of `n` bytes is zero from bit `8 n` on. -/
theorem wordOfBytes_getLsbD_of_le (bytes : List Byte) (i : Nat) (h : 8 * bytes.length ≤ i) :
    (wordOfBytes bytes).getLsbD i = false := by
  induction bytes generalizing i with
  | nil => simp [wordOfBytes]
  | cons b bs ih =>
    simp only [List.length_cons] at h
    simp only [wordOfBytes, BitVec.getLsbD_or, BitVec.getLsbD_shiftLeft, BitVec.getLsbD_setWidth]
    rw [ih (i - 8) (by omega), BitVec.getLsbD_of_ge b _ (by omega)]
    simp

theorem bytesOfWord_getElem? (n : Nat) (v : Word) (i : Nat) (h : i < n) :
    (bytesOfWord n v)[i]? = some (v.extractLsb' (8 * i) 8) := by
  rw [bytesOfWord, List.getElem?_map, List.getElem?_range h]
  rfl

end Sys2Proof.Machine
end

