-- ==== Sys2Proof/Laws/Ops.lean ====
section
/-! SUPPORT. For each shared operation, once, what it can do: the length and capacity checks, the three commits, the
resolution of an address, a host write, the decoder's turn, the copy of a match. -/

namespace Sys2Proof.Machine

/-! ## Checks and commits -/

/-- The output capacity test (R130). -/
theorem fitResult_bytes (b : Build) (y : List Byte) :
    fitResult b (.bytes y) = if y.length ≤ b.obufSize then .bytes y else .error .outputOverflow := by
  simp only [fitResult]
  split_ifs <;> first | rfl | omega

/-- A legal command on a legal length is its function, then the capacity test. -/
theorem State.checked_legal {s : State} (f : Flight → Result) (h : s.operation.n.toNat ≤ s.build.ibufSize) :
    s.checked f = fitResult s.build (f s.operation) := by
  rw [State.checked, if_neg (by omega)]

/-- A legal command on an illegal length (R126). -/
theorem State.checked_badLength {s : State} (f : Flight → Result) (h : s.build.ibufSize < s.operation.n.toNat) :
    s.checked f = .error .badLength := by
  rw [State.checked, if_pos h]

/-- The commit of an output (R129). -/
theorem State.commitBytes_delivered (s : State) (y : List Byte) : Delivered s y (s.commitBytes y) :=
  ⟨_, rfl, fun k => by rw [Memory.read_writeAll]; simp⟩

/-- The commit of an error that makes OBUF unspecified (R132). -/
theorem State.takeError_losing (s : State) (e : CmdError) (h : e.losesOutput = true) :
    FailedLosingOutput s e (s.takeError e) :=
  ⟨Memory.unspecified s.draws, by simp [State.takeError, h], fun _ => rfl⟩

/-- The commit of an error that leaves OBUF unchanged (R132). -/
theorem State.takeError_keeping (s : State) (e : CmdError) (h : e.losesOutput = false) :
    FailedKeepingOutput s e (s.takeError e) := by
  simp [State.takeError, h, FailedKeepingOutput]

/-- A command in flight is what a command works on. -/
theorem State.operation_flight {s : State} {f : Flight} (h : s.flight = some f) : s.operation = f := by
  simp [State.operation, h]

/-- A commit forgets the command in flight, whatever it was (R45). -/
theorem State.commit_flight (r : Result) (s : State) (f : Option Flight) :
    ({ s with flight := f } : State).commit r = s.commit r := by
  cases r <;> rfl

/-! ## The bus -/

theorem resolve_reg (b : Build) (r : Reg) : resolve b r.offset 4 = .ok (.reg r) := by
  cases r <;> simp [resolve, regEnd, Reg.atOffset, Reg.offset]

theorem Reg.atOffset_eq_some (a : Nat) (r : Reg) : Reg.atOffset a = some r ↔ a = r.offset := by
  constructor
  · intro h
    unfold Reg.atOffset at h
    split at h <;> first | (cases h; rfl) | cases h
  · rintro rfl
    cases r <;> rfl

/-- What an access that gets `OK` can be: of one register, or of bytes inside one buffer. -/
theorem resolve_ok {b : Build} {a n : Nat} {t : Target} (h : resolve b a n = .ok t) :
    (∃ r, t = .reg r ∧ n = 4 ∧ a = r.offset) ∨
      (∃ k, t = .ibuf k ∧ a = ibufBase + k ∧ bufferAligned a n ∧ k + n ≤ b.ibufSize) ∨
      (∃ k, t = .obuf k ∧ a = obufBase + k ∧ bufferAligned a n ∧ k + n ≤ b.obufSize) := by
  unfold resolve at h
  split_ifs at h with c1 c2 c3 c4 c5 c6 c7 c8
  · split at h
    · rename_i r hr
      cases h
      exact .inl ⟨r, rfl, c2, (Reg.atOffset_eq_some _ _).1 hr⟩
    · cases h
  · cases h; exact .inr (.inl ⟨_, rfl, by omega, c4, by omega⟩)
  · cases h; exact .inr (.inr ⟨_, rfl, by omega, c7, by omega⟩)

theorem cmdStart_eq_zero (w : Word) : cmdStart w = 0 ↔ w.getLsbD 0 = false := by
  unfold cmdStart
  constructor
  · intro h
    have := congrArg (fun x => x.getLsbD 0) h
    simpa using this
  · intro h
    ext i hi
    have : i = 0 := by omega
    subst this
    simpa using h

theorem Txn.writtenNop_none {b : Build} {a n : Nat} {v : Word} {t : Target} (h : resolve b a n = .ok t)
    (ht : t ≠ .reg .cmd) : (Txn.write a n v).writtenNop b = none := by
  simp only [Txn.writtenNop, h]
  match t with
  | .ibuf _ => rfl
  | .obuf _ => rfl
  | .reg r => cases r <;> first | rfl | exact absurd rfl ht

/-- A host write anywhere but to CMD is its target's write, with the response `OK`. -/
theorem step_write {s : State} {a n : Nat} {v : Word} {t : Target} {es : List Event}
    (he : s.pending = .host (.write a n v) :: es) (h : resolve s.build a n = .ok t) (ht : t ≠ .reg .cmd) :
    step s = .next ((({ s with pending := es } : State).writeTarget t n v).respond .ok) := by
  have hn := Txn.writtenNop_none (v := v) h ht
  simp only [step, he, eventTurn, hostTurn, busAccess, h, busOutcome, hn]

/-- A host write to CMD with START = 1. -/
theorem step_writeStart {s : State} {w : Word} {es : List Event} (he : s.pending = .host (.write 0x18 4 w) :: es)
    (hw : cmdStart w ≠ 0) :
    step s = .next ((({ s with pending := es } : State).writeCmd w).respond .ok) := by
  have h := resolve_reg s.build .cmd
  rw [Reg.offset] at h
  simp only [step, he, eventTurn, hostTurn, busAccess, h, State.writeTarget, State.writeReg, State.writeCmd, hw,
    if_false, busOutcome, Txn.writtenNop]

/-- A host read that gets `OK`. -/
theorem step_read {s : State} {a n : Nat} {t : Target} {es : List Event} (he : s.pending = .host (.read a n) :: es)
    (h : resolve s.build a n = .ok t) :
    step s = .next ((({ s with pending := es } : State).readTarget t n).2.respond
      (({ s with pending := es } : State).readTarget t n).1) := by
  simp only [step, he, eventTurn, hostTurn, busAccess, h, Txn.writtenNop]
  cases t <;> rfl

/-- The no-operation a transaction writes is one. -/
theorem Txn.writtenNop_some {b : Build} {t : Txn} {i : Instr} (h : t.writtenNop b = some i) :
    ∃ rest, i = .cmdNop rest := by
  unfold Txn.writtenNop at h
  split at h
  · cases h
  · split at h
    · split_ifs at h with h0
      cases h
      exact ⟨_, decodeCommand_nop h0⟩
    · cases h

/-- A host transaction that does not stop is its bus access, with the response kept. -/
theorem hostTurn_next {s t : State} {x : Txn} (h : hostTurn x s = .next t) :
    (∀ why, (busAccess x s).1 ≠ .error why) ∧ t = (busAccess x s).2.respond (busAccess x s).1 := by
  unfold hostTurn busOutcome at h
  generalize busAccess x s = q at *
  obtain ⟨r, u⟩ := q
  cases r with
  | error => simp at h
  | ok =>
    simp only at h
    split at h
    · rename_i i hi
      obtain ⟨rest, rfl⟩ := Txn.writtenNop_some hi
      cases h
      exact ⟨by simp, rfl⟩
    · cases h
      exact ⟨by simp, rfl⟩
  | data d =>
    simp only at h
    split at h
    · rename_i i hi
      obtain ⟨rest, rfl⟩ := Txn.writtenNop_some hi
      cases h
      exact ⟨by simp, rfl⟩
    · cases h
      exact ⟨by simp, rfl⟩

/-- No bus access touches the build or what is pending. -/
theorem busAccess_frame (x : Txn) (s : State) :
    (busAccess x s).2.build = s.build ∧ (busAccess x s).2.pending = s.pending := by
  unfold busAccess
  split <;> split <;> try exact ⟨rfl, rfl⟩
  · rename_i target _
    cases target <;> exact ⟨rfl, rfl⟩
  · rename_i target _
    cases target with
    | reg r =>
      cases r <;> simp only [State.writeTarget, State.writeReg, State.writeCmd] <;> (try split_ifs) <;>
        first | exact ⟨rfl, rfl⟩ | exact ⟨trivial, trivial⟩
    | ibuf k => simp only [State.writeTarget, State.writeIbuf]; split_ifs <;> exact ⟨rfl, rfl⟩
    | obuf k => simp only [State.writeTarget, State.writeObuf]; split_ifs <;> exact ⟨rfl, rfl⟩

/-! ## exec -/

/-- Every instruction has its effect on every state. -/
theorem exec_next (i : Instr) (s : State) : ∃ t, exec i s = .next t := by cases i <;> exact ⟨_, rfl⟩

theorem State.commit_frame (r : Result) (s : State) :
    (s.commit r).build = s.build ∧ (s.commit r).pending = s.pending := by cases r <;> exact ⟨rfl, rfl⟩

/-- No instruction touches the build or what is pending. -/
theorem exec_frame {i : Instr} {s t : State} (h : exec i s = .next t) :
    t.build = s.build ∧ t.pending = s.pending := by
  cases i <;> cases h <;> first | exact State.commit_frame _ _ | exact ⟨rfl, rfl⟩

/-- The commit of a busy core. -/
theorem commitTurn_busy {s : State} {f : Flight} (h : s.flight = some f) : commitTurn s = exec (f.instr s.build) s := by
  unfold commitTurn
  rw [h]

theorem commitTurn_idle {s : State} (h : s.flight = none) : commitTurn s = .next s := by
  unfold commitTurn
  rw [h]

/-! ## The decoder's turn -/

theorem State.tokenReady_eq {s : State} {f : Flight} {c : Codec} (h : s.flight = some f)
    (hc : f.codec s.build = some c) (ha : f.decoder.active f.x) : s.tokenReady = some (c, f) := by
  simp only [State.tokenReady, h, hc, if_pos ha]

theorem State.tokenReady_some {s : State} {c : Codec} {f : Flight} (h : s.tokenReady = some (c, f)) :
    s.flight = some f ∧ f.codec s.build = some c ∧ f.decoder.active f.x := by
  unfold State.tokenReady at h
  split at h
  · cases h
  · rename_i g hg
    split at h
    · cases h
    · rename_i d hd
      split_ifs at h with ha
      cases h
      exact ⟨hg, hd, ha⟩

/-- The decoder's turn is one round of its loop. -/
theorem tokenTurn_eq {s : State} {c : Codec} {f : Flight} (h : s.tokenReady = some (c, f)) :
    tokenTurn s = .next { s with flight := some { f with decoder := f.decoder.tokenStep c f.x } } := by
  have hf := (State.tokenReady_some h).1
  simp only [tokenTurn, h, Decoder.tokenStep]
  cases e : f.decoder.fetch c f.x with
  | ok p =>
    obtain ⟨i, rest⟩ := p
    simp only [exec_token e, State.onDecoder, hf, Option.map_some]
  | error r => simp only [State.onDecoder, hf, Option.map_some]

/-- A command in flight that runs a decoder is the DEC command of its codec, on a legal length. -/
theorem Flight.codec_some {b : Build} {f : Flight} {c : Codec} (h : f.codec b = some c) :
    f.n.toNat ≤ b.ibufSize ∧ f.instr b = (match c with | .rle => Instr.rleDec | .wm => Instr.wmDec) := by
  unfold Flight.codec at h
  split_ifs at h with hn
  refine ⟨by omega, ?_⟩
  revert h
  cases f.instr b <;> simp [decoderOf] <;> rintro rfl <;> rfl

theorem tokenTurn_none {s : State} (h : s.tokenReady = none) : tokenTurn s = .next s := by
  simp only [tokenTurn, h]

/-! ## The copy of a match -/

/-- R192: the copied bytes, one by one. -/
theorem copyBack_spec (o : Nat) (ho : 1 ≤ o) (l : Nat) (y : List Byte) (hl : o ≤ y.length) :
    (copyBack o l y).length = y.length + l ∧ (∀ k, k < y.length → (copyBack o l y)[k]? = y[k]?) ∧
      ∀ k, k < l → (copyBack o l y)[y.length + k]? = (copyBack o l y)[y.length - o + k]? := by
  induction l generalizing y with
  | zero => simp [copyBack]
  | succ l ih =>
    simp only [copyBack]
    have hx : y.length - o < y.length := by omega
    rw [List.getElem?_eq_getElem hx]
    simp only [Option.toList_some]
    set z := y ++ [y[y.length - o]] with hz
    have hzl : z.length = y.length + 1 := by simp [hz]
    obtain ⟨i1, i2, i3⟩ := ih z (by omega)
    refine ⟨by omega, ?_, ?_⟩
    · intro k hk
      rw [i2 k (by omega), hz, List.getElem?_append_left hk]
    · intro k hk
      rcases Nat.eq_zero_or_pos k with rfl | hp
      · have e1 := i2 y.length (by omega)
        have e2 := i2 (y.length - o) (by omega)
        rw [Nat.add_zero, Nat.add_zero, e1, e2, hz, List.getElem?_append_left hx,
          List.getElem?_append_right (le_refl _), List.getElem?_eq_getElem hx]
        simp
      · have := i3 (k - 1) (by omega)
        rw [hzl, show y.length + 1 + (k - 1) = y.length + k by omega,
          show y.length + 1 - o + (k - 1) = y.length - o + k by omega] at this
        exact this

end Sys2Proof.Machine
end

