-- ==== Sys2Proof/Laws/PerInstr.lean ====
section
/-! SUPPORT. Statements made per instruction, one lemma for each constructor. -/

namespace Sys2Proof.Laws

/-- R101: the first byte alone tells a token's length: in RLE 0xFF stands before two more bytes and any other byte
stands alone; in Window-Match 0x00 stands before one more and 0x01 before two, and a bad marker is read alone. -/
def FirstByteTellsTheLength.stream (c : Codec) (bytes : List Byte) : Prop :=
  match c, bytes with
  | _, [] => False
  | .rle, b :: rest => rest.length = if b = 0xFF then 2 else 0
  | .wm, b :: rest => rest.length = if b = 0x00 then 1 else if b = 0x01 then 2 else 0

/-- A well-formed instruction is encoded in one command word, whose START bit is 0 for the no-operation alone (R101,
R102), or in the bytes of a token. -/
def FirstByteTellsTheLength.Statement (i : Instr) : Prop :=
  ∀ hasSelector : Bool, i.wf hasSelector = true →
    match encode i with
    | .command w => cmdStart w = 1 ∨ ∃ rest, i = .cmdNop rest
    | .stream c bytes => FirstByteTellsTheLength.stream c bytes

theorem FirstByteTellsTheLength.rleEnc : Statement .rleEnc := fun _ _ => .inl (commandWord_start _ _ _ _ _)
theorem FirstByteTellsTheLength.rleDec : Statement .rleDec := fun _ _ => .inl (commandWord_start _ _ _ _ _)
theorem FirstByteTellsTheLength.wmEnc : Statement .wmEnc := fun _ _ => .inl (commandWord_start _ _ _ _ _)
theorem FirstByteTellsTheLength.wmDec : Statement .wmDec := fun _ _ => .inl (commandWord_start _ _ _ _ _)
theorem FirstByteTellsTheLength.sel (alg : BitVec 2) : Statement (.sel alg) :=
  fun _ _ => .inl (commandWord_start _ _ _ _ _)
theorem FirstByteTellsTheLength.cmdNop (rest : BitVec 31) : Statement (.cmdNop rest) := fun _ _ => .inr ⟨rest, rfl⟩
theorem FirstByteTellsTheLength.cmdUnsupportedAlg (op : Direction) (alg : BitVec 2) :
    Statement (.cmdUnsupportedAlg op alg) := fun _ _ => .inl (commandWord_start _ _ _ _ _)
theorem FirstByteTellsTheLength.cmdIllegal (w : Word) : Statement (.cmdIllegal w) := by
  intro hasSelector h
  simp only [Instr.wf, Bool.and_eq_true, decide_eq_true_eq] at h
  exact .inl h.1
theorem FirstByteTellsTheLength.rleLit (v : Byte) : Statement (.rleLit v) := by
  intro hasSelector h
  simp only [Instr.wf, decide_eq_true_eq] at h
  simp only [encode, stream]
  rw [if_neg h]
  rfl
theorem FirstByteTellsTheLength.rleRun (v c : Byte) : Statement (.rleRun v c) := fun _ _ => rfl
theorem FirstByteTellsTheLength.wmLit (v : Byte) : Statement (.wmLit v) := fun _ _ => rfl
theorem FirstByteTellsTheLength.wmMatch (o l : Byte) : Statement (.wmMatch o l) := fun _ _ => rfl
theorem FirstByteTellsTheLength.wmBadMarker (m : Byte) : Statement (.wmBadMarker m) := by
  intro hasSelector h
  simp only [Instr.wf, decide_eq_true_eq] at h
  simp only [encode, stream]
  rw [if_neg (by rintro rfl; simp at h), if_neg (by rintro rfl; simp at h)]
  rfl

end Sys2Proof.Laws
end

