-- ==== Sys2Proof/Laws/Reference.lean ====
section
/-! SUPPORT. The model's encoder, decoders and selector compute what the spec's pseudocode (Machine/Reference.lean)
computes. -/

namespace Sys2Proof.Machine

/-! ## The RLE encoder -/

theorem Reference.le_chunkLen (x : List Byte) (j : Nat) (v : Byte) (fuel c : Nat) :
    c ≤ Reference.chunkLen x j v fuel c := by
  induction fuel generalizing c with
  | zero => exact le_refl c
  | succ n ih =>
    simp only [Reference.chunkLen]
    split_ifs
    · exact le_trans (Nat.le_succ c) (ih (c + 1))
    · exact le_refl c

/-- The scan flushes the chunk that the inner loop of R150 finds, and goes on right after it. -/
theorem rleScan_chunk (ffesc : Bool) (x : List Byte) (j : Nat) (v : Byte) (fuel c : Nat)
    (h : x.length ≤ j + c + fuel) :
    rleScan ffesc v c (x.drop (j + c)) =
      rleEmit ffesc v (Reference.chunkLen x j v fuel c) ++
        rleEnc ffesc (x.drop (j + Reference.chunkLen x j v fuel c)) := by
  induction fuel generalizing c with
  | zero =>
    simp only [Reference.chunkLen]
    rw [List.drop_eq_nil_of_le (by omega)]
    simp [rleScan, rleEnc]
  | succ n ih =>
    simp only [Reference.chunkLen]
    by_cases hl : j + c < x.length
    · rw [List.drop_eq_getElem_cons hl, List.getElem?_eq_getElem hl]
      simp only [rleScan, hl, true_and, Option.some.injEq]
      split_ifs with h'
      · have := ih (c + 1) (by omega)
        rwa [← Nat.add_assoc] at this
      · rw [List.drop_eq_getElem_cons hl]
        rfl
    · rw [if_neg (by simp [hl]), List.drop_eq_nil_of_le (by omega)]
      simp [rleScan, rleEnc]

theorem Reference.rleEncLoop_eq (ffesc : Bool) (x : List Byte) (fuel j : Nat) (h : x.length ≤ j + fuel) :
    Reference.rleEncLoop ffesc x fuel j = Machine.rleEnc ffesc (x.drop j) := by
  induction fuel generalizing j with
  | zero => rw [List.drop_eq_nil_of_le (by omega)]; rfl
  | succ n ih =>
    simp only [Reference.rleEncLoop]
    by_cases hl : j < x.length
    · have hc := Reference.le_chunkLen x j x[j] x.length 1
      rw [List.getElem?_eq_getElem hl, List.drop_eq_getElem_cons hl]
      simp only [Machine.rleEnc]
      rw [rleScan_chunk ffesc x j _ x.length 1 (by omega), ih _ (by omega)]
      rfl
    · rw [List.getElem?_eq_none (by omega), List.drop_eq_nil_of_le (by omega)]
      rfl

/-- R150 as the pseudocode writes it. -/
theorem Reference.rleEnc_eq (ffesc : Bool) (x : List Byte) : Reference.rleEnc ffesc x = Machine.rleEnc ffesc x := by
  have h := Reference.rleEncLoop_eq ffesc x x.length 0 (by omega)
  rwa [List.drop_zero] at h

/-! ## The Window-Match encoder -/

theorem Reference.candidateLoop_eq (ov : Bool) (x : List Byte) (i pos left fuel k : Nat) (hk : k + left = 255)
    (h : x.length ≤ pos + k + fuel) :
    Reference.candidateLoop ov x i pos fuel k = wmExtend ov x i pos left k := by
  induction left generalizing fuel k with
  | zero => cases fuel <;> simp [Reference.candidateLoop, wmExtend, show k = 255 by omega]
  | succ left ih =>
    cases fuel with
    | zero =>
      simp only [Reference.candidateLoop, wmExtend]
      rw [if_neg (by omega)]
    | succ fuel =>
      simp only [Reference.candidateLoop, wmExtend, show k < 255 by omega, true_and]
      rw [ih fuel (k + 1) (by omega) (by omega)]

/-- R182, R183: the pseudocode's candidate is the model's. -/
theorem Reference.candidateLoop_matchLen (ov : Bool) (x : List Byte) (i pos : Nat) :
    Reference.candidateLoop ov x i pos x.length 0 = wmMatchLen ov x i pos :=
  Reference.candidateLoop_eq ov x i pos 255 x.length 0 rfl (by omega)

theorem Reference.windowLoop_eq (ov : Bool) (x : List Byte) (pos left i : Nat) (best : Candidate) :
    Reference.windowLoop ov x pos left i (best.len, best.off) =
      (((List.range' i left).foldl (wmBetter ov x pos) best).len,
        ((List.range' i left).foldl (wmBetter ov x pos) best).off) := by
  induction left generalizing i best with
  | zero => rfl
  | succ left ih =>
    rw [List.range'_succ, List.foldl_cons, ← ih]
    simp only [Reference.windowLoop, Reference.candidateLoop_matchLen, wmBetter]
    split_ifs <;> rfl

/-- R181, R184: the pseudocode's best candidate is the model's. -/
theorem Reference.windowLoop_search (ov : Bool) (w : Nat) (x : List Byte) (pos : Nat) :
    Reference.windowLoop ov x pos (min w pos) (pos - w) (0, 0) =
      ((wmSearch ov w x pos).len, (wmSearch ov w x pos).off) := by
  rw [wmSearch, wmWindow, show pos - (pos - w) = min w pos by omega]
  exact Reference.windowLoop_eq ov x pos _ _ { len := 0, off := 0 }

theorem Reference.wmEncLoop_eq (w m : Nat) (ov : Bool) (x : List Byte) (fuel pos : Nat) (y : List Byte) :
    Reference.wmEncLoop w m ov x fuel pos y = y ++ wmEncFrom ov w m x fuel pos := by
  induction fuel generalizing pos y with
  | zero => simp [Reference.wmEncLoop, wmEncFrom]
  | succ fuel ih =>
    simp only [Reference.wmEncLoop, wmEncFrom, Reference.windowLoop_search]
    cases x[pos]? with
    | none => simp
    | some b =>
      simp only [ih, ge_iff_le]
      split_ifs <;> simp

/-- R180 as the pseudocode writes it. -/
theorem Reference.wmEnc_eq (w m : Byte) (ov : Bool) (x : List Byte) :
    Reference.wmEnc w m ov x = Machine.wmEnc w m ov x :=
  (Reference.wmEncLoop_eq w.toNat m.toNat ov x x.length 0 []).trans (List.nil_append _)

/-! ## The decoders -/

theorem Reference.rleDec_run (v c : Byte) (rest : List Byte) :
    Reference.rleDec (0xFF :: v :: c :: rest) =
      Reference.prependTo (List.replicate c.toNat v) (Reference.rleDec rest) := rfl

theorem Reference.rleDec_lit {b : Byte} (h : b ≠ 0xFF) (rest : List Byte) :
    Reference.rleDec (b :: rest) = Reference.prependTo [b] (Reference.rleDec rest) := by
  rw [Reference.rleDec.eq_def]
  simp only [if_neg h]

theorem Reference.wmDecFrom_badMarker {m : Byte} (h0 : m ≠ 0x00) (h1 : m ≠ 0x01) (y rest : List Byte) :
    Reference.wmDecFrom y (m :: rest) = none := by
  rw [Reference.wmDecFrom.eq_def]
  simp only [if_neg h0, if_neg h1]

theorem Reference.prependTo_append (a b : List Byte) (r : Option (List Byte)) :
    Reference.prependTo (a ++ b) r = Reference.prependTo a (Reference.prependTo b r) := by
  cases r <;> simp [Reference.prependTo]

theorem drop_succ_of_cons {x t : List Byte} {b : Byte} {p : Nat} (h : x.drop p = b :: t) : x.drop (p + 1) = t := by
  rw [← List.drop_drop, h]
  rfl

theorem drop_ne_nil {x : List Byte} {p : Nat} (h : p < x.length) : x.drop p ≠ [] := by
  simpa using h

/-- R156: the loop's result is the pseudocode's on the stream that is left, after the output so far. -/
theorem Decoder.run_rle (x : List Byte) (n : Nat) (d : Decoder) (hb : d.bad = false) (h : x.length ≤ d.pos + n) :
    (Decoder.run .rle x n d).result =
      Reference.ofDecoded (Reference.prependTo d.out (Reference.rleDec (x.drop d.pos))) := by
  induction n generalizing d with
  | zero =>
    rw [Decoder.run_end _ _ _ hb (by omega), List.drop_eq_nil_of_le (by omega)]
    simp [Reference.rleDec, Reference.prependTo, Reference.ofDecoded]
  | succ n ih =>
    by_cases hl : d.pos < x.length
    · rw [Decoder.run_active _ _ _ ⟨hb, hl⟩]
      rcases hx : x.drop d.pos with _ | ⟨b, t⟩
      · exact absurd hx (drop_ne_nil hl)
      · have h1 := drop_succ_of_cons hx
        by_cases hff : b = 0xFF
        · subst hff
          match t with
          | v :: c :: t' =>
            have h3 : x.drop (d.pos + 3) = t' := drop_succ_of_cons (drop_succ_of_cons h1)
            rw [Decoder.tokenStep_ok (i := .rleRun v c) (rest := t') (by rw [hx]; rfl),
              ih (tokenEffect (.rleRun v c) d) hb (by simp [tokenEffect, rleRunEffect]; omega), Reference.rleDec_run,
              ← Reference.prependTo_append]
            simp only [tokenEffect, rleRunEffect, h3]
          | [v] => rw [Decoder.tokenStep_error (e := .truncatedRun) (by rw [hx]; rfl), Decoder.run_raise]; rfl
          | [] => rw [Decoder.tokenStep_error (e := .truncatedRun) (by rw [hx]; rfl), Decoder.run_raise]; rfl
        · rw [Decoder.tokenStep_ok (i := .rleLit b) (rest := t) (by rw [hx]; exact decodeRle_lit hff t),
            ih (tokenEffect (.rleLit b) d) hb (by simp [tokenEffect, rleLitEffect]; omega), Reference.rleDec_lit hff,
            ← Reference.prependTo_append]
          simp only [tokenEffect, rleLitEffect, h1]
    · rw [Decoder.run_end _ _ _ hb (by omega), List.drop_eq_nil_of_le (by omega)]
      simp [Reference.rleDec, Reference.prependTo, Reference.ofDecoded]

theorem rleDec_eq (x : List Byte) : rleDec x = Reference.ofDecoded (Reference.rleDec x) := by
  rw [rleDec, Decoder.finish, Decoder.run_rle x x.length Decoder.fresh rfl (by simp [Decoder.fresh])]
  simp only [Decoder.fresh, List.drop_zero]
  cases Reference.rleDec x <;> rfl

/-- The copy by distance from the end is the copy by index of R192. -/
theorem copyBack_eq_copyLoop (o l k start : Nat) (y : List Byte) (h : start + o = y.length - k) (hk : k ≤ y.length)
    (ho : 1 ≤ o) : copyBack o l y = Reference.copyLoop start l k y := by
  induction l generalizing k y with
  | zero => rfl
  | succ l ih =>
    have hl : start + k < y.length := by omega
    simp only [copyBack, Reference.copyLoop]
    rw [show y.length - o = start + k by omega, List.getElem?_eq_getElem hl]
    exact ih (k + 1) _ (by simp; omega) (by simp; omega)

/-- R190: the loop's result is the pseudocode's on the stream that is left, after the output so far. -/
theorem Decoder.run_wm (x : List Byte) (n : Nat) (d : Decoder) (hb : d.bad = false) (h : x.length ≤ d.pos + n) :
    (Decoder.run .wm x n d).result = Reference.ofDecoded (Reference.wmDecFrom d.out (x.drop d.pos)) := by
  induction n generalizing d with
  | zero =>
    rw [Decoder.run_end _ _ _ hb (by omega), List.drop_eq_nil_of_le (by omega)]
    rfl
  | succ n ih =>
    by_cases hl : d.pos < x.length
    · rw [Decoder.run_active _ _ _ ⟨hb, hl⟩]
      rcases hx : x.drop d.pos with _ | ⟨b, t⟩
      · exact absurd hx (drop_ne_nil hl)
      · have h1 := drop_succ_of_cons hx
        by_cases h00 : b = 0x00
        · subst h00
          match t with
          | v :: t' =>
            have h2 : x.drop (d.pos + 2) = t' := drop_succ_of_cons h1
            rw [Decoder.tokenStep_ok (i := .wmLit v) (rest := t') (by rw [hx]; rfl),
              ih (tokenEffect (.wmLit v) d) hb (by simp [tokenEffect, wmLitEffect]; omega)]
            simp [tokenEffect, wmLitEffect, h2, Reference.wmDecFrom]
          | [] => rw [Decoder.tokenStep_error (e := .truncatedLiteral) (by rw [hx]; rfl), Decoder.run_raise]; rfl
        · by_cases h01 : b = 0x01
          · subst h01
            match t with
            | o :: l :: t' =>
              have h3 : x.drop (d.pos + 3) = t' := drop_succ_of_cons (drop_succ_of_cons h1)
              rw [Decoder.tokenStep_ok (i := .wmMatch o l) (rest := t') (by rw [hx]; rfl)]
              simp only [tokenEffect, wmMatchEffect, Reference.wmDecFrom, if_neg h00, if_true]
              by_cases ho : o = 0 ∨ d.out.length < o.toNat
              · rw [if_pos ho, Decoder.run_raise, if_pos ho]
                rfl
              · have h1o : 1 ≤ o.toNat := by
                  rcases Nat.eq_zero_or_pos o.toNat with hz | hp
                  · exact absurd (.inl (BitVec.eq_of_toNat_eq hz)) ho
                  · exact hp
                rw [if_neg ho, if_neg ho,
                  ih { d with pos := d.pos + 3, out := copyBack o.toNat l.toNat d.out } hb (by simp; omega),
                  copyBack_eq_copyLoop o.toNat l.toNat 0 (d.out.length - o.toNat) d.out (by omega) (by omega) h1o, h3]
            | [_] => rw [Decoder.tokenStep_error (e := .truncatedMatch) (by rw [hx]; rfl), Decoder.run_raise]; rfl
            | [] => rw [Decoder.tokenStep_error (e := .truncatedMatch) (by rw [hx]; rfl), Decoder.run_raise]; rfl
          · rw [Decoder.tokenStep_ok (i := .wmBadMarker b) (rest := t) (by rw [hx]; exact decodeWm_badMarker h00 h01 t),
              Reference.wmDecFrom_badMarker h00 h01]
            exact Decoder.run_raise _ _ _ _
    · rw [Decoder.run_end _ _ _ hb (by omega), List.drop_eq_nil_of_le (by omega)]
      rfl

theorem wmDec_eq (x : List Byte) : wmDec x = Reference.ofDecoded (Reference.wmDec x) := by
  rw [wmDec, Decoder.finish, Decoder.run_wm x x.length Decoder.fresh rfl (by simp [Decoder.fresh])]
  rfl

/-! ## The selector -/

/-- R222: the count of adjacent pairs is the count of positions. -/
theorem repeatCount_eq (x : List Byte) : repeatCount x = Reference.repeats x := by
  induction x with
  | nil => rfl
  | cons a t ih =>
    cases t with
    | nil => rfl
    | cons b t =>
      have shift : List.range' (1 + 1) t.length = (List.range' 1 t.length).map (· + 1) := by
        rw [show (fun x : Nat => x + 1) = (1 + ·) from funext fun x => by omega, List.map_add_range']
      have later : (List.range' 1 t.length).filter
          ((fun i => decide ((a :: b :: t)[i]? = (a :: b :: t)[i - 1]?)) ∘ (· + 1)) =
            (List.range' 1 t.length).filter fun i => decide ((b :: t)[i]? = (b :: t)[i - 1]?) := by
        apply List.filter_congr
        intro i hi
        rw [List.mem_range'_1] at hi
        obtain ⟨k, rfl⟩ : ∃ k, i = k + 1 := ⟨i - 1, by omega⟩
        simp
      simp only [repeatCount, ih, Reference.repeats, List.length_cons, Nat.add_sub_cancel]
      rw [List.range'_succ (s := 1) (n := t.length), List.filter_cons, shift, List.filter_map, later]
      by_cases h : b = a
      · subst h
        simp
        omega
      · simp [h]

end Sys2Proof.Machine
end

