-- ==== Sys2Proof/Tests/Slice0.lean ====
section
/-! SUPPORT. The model's own tests: the ill-formed terms WellFormed refuses, every constructor's decoding from a word
written out, single steps with the results of 95_test_vectors.md, and a witness of each obligation's hypotheses. -/

namespace Sys2Proof.Tests

open Sys2Proof Sys2Proof.Machine

/-! ## Helpers -/

/-- A small build: 16-byte input buffer, 8-byte output buffer. -/
def bench : Build := { ibufSize := 16, obufSize := 8, hasSelector := true, wmOverlap := false }

def idle : State := State.ofBuild bench

/-- `x` in IBUF and its length in IN_LEN. -/
def loaded (x : List Byte) : State :=
  { idle with ibuf := idle.ibuf.writeAll 0 x, inLen := BitVec.ofNat 32 x.length }

/-- The command `w` accepted on the input `x`, with `es` pending. -/
def started (w : Word) (x : List Byte) (es : List Event) : State := { (loaded x).accept w with pending := es }

/-- The flight of `started`. -/
def flight (w : Word) (x : List Byte) : Flight :=
  { word := w, cfg := ConfigReg.reset, n := BitVec.ofNat 32 x.length, x := x, decoder := Decoder.fresh }

/-- ERR, the output and RESULT.SEL after a step. -/
def left (o : Host.Outcome State Fault Refusal) : Option (Option CmdError × List Byte × Codec) :=
  match o with
  | .next t => some (t.err, t.obuf.readAll 0 t.outLen.toNat, t.resultSel)
  | .fault _ => none
  | .refused _ => none

/-- The decoder's output, position and failure after a step. -/
def decoded (o : Host.Outcome State Fault Refusal) : Option Decoder :=
  match o with
  | .next t => t.flight.map Flight.decoder
  | .fault _ => none
  | .refused _ => none

/-! ## Well-formedness refuses -/

theorem test_wf_rleLit_marker : (Instr.rleLit 0xFF).wf true = false := by decide
theorem test_wf_badMarker_literal : (Instr.wmBadMarker 0x00).wf true = false := by decide
theorem test_wf_badMarker_match : (Instr.wmBadMarker 0x01).wf true = false := by decide
theorem test_wf_unsupported_rle : (Instr.cmdUnsupportedAlg .enc 0).wf true = false := by decide
theorem test_wf_unsupported_wm : (Instr.cmdUnsupportedAlg .dec 1).wf true = false := by decide
theorem test_wf_sel_absent : (Instr.sel 0).wf false = false := by decide
theorem test_wf_illegal_legalWord : (Instr.cmdIllegal 0x00000001).wf true = false := by decide
theorem test_wf_illegal_notStarted : (Instr.cmdIllegal 0x00000008).wf true = false := by decide
theorem test_wf_illegal_sel : (Instr.cmdIllegal 0x00000005).wf true = false := by decide
theorem test_wf_illegal_sel_absent : (Instr.cmdIllegal 0x00000005).wf false = true := by decide

/-! ## Decoding of words written out from R91 to R94 and R106 -/

theorem test_decode_rleEnc : decodeCommand true 0b00000000000000000000000000000001 = .rleEnc := by decide
theorem test_decode_rleDec : decodeCommand true 0b00000000000000000000000000000011 = .rleDec := by decide
theorem test_decode_wmEnc : decodeCommand true 0b00000000000000000000000000010001 = .wmEnc := by decide
theorem test_decode_wmDec : decodeCommand true 0b00000000000000000000000000010011 = .wmDec := by decide
theorem test_decode_sel : decodeCommand true 0b00000000000000000000000000100101 = .sel 2 := by decide
theorem test_decode_cmdNop : decodeCommand true 0b11000000000000000000000000001110 =
    .cmdNop 0b1100000000000000000000000000111 := by decide
theorem test_decode_unsupported : decodeCommand true 0b00000000000000000000000000110011 =
    .cmdUnsupportedAlg .dec 3 := by decide
theorem test_decode_illegal_op : decodeCommand true 0b00000000000000000000000000000111 = .cmdIllegal 0x07 := by decide
theorem test_decode_illegal_bit3 : decodeCommand true 0b00000000000000000000000000001001 = .cmdIllegal 0x09 := by decide
theorem test_decode_illegal_bit6 : decodeCommand true 0b00000000000000000000000001000001 = .cmdIllegal 0x41 := by decide
theorem test_decode_illegal_bit31 : decodeCommand true 0x80000001 = .cmdIllegal 0x80000001 := by decide
theorem test_decode_illegal_before_unsupported : decodeCommand true 0x61 = .cmdIllegal 0x61 := by decide
theorem test_decode_rleLit : decodeToken .rle [0b01000001] = .ok (.rleLit 0x41, []) := by decide
theorem test_decode_rleRun : decodeToken .rle [0b11111111, 0b01000001, 0b00000011] = .ok (.rleRun 0x41 3, []) := by decide
theorem test_decode_rleRun_truncated : decodeToken .rle [0xFF, 0x41] = .error .truncatedRun := by decide
theorem test_decode_wmLit : decodeToken .wm [0b00000000, 0b01000001] = .ok (.wmLit 0x41, []) := by decide
theorem test_decode_wmMatch : decodeToken .wm [0b00000001, 0b00000011, 0b00001100] = .ok (.wmMatch 3 12, []) := by decide
theorem test_decode_wmMatch_truncated : decodeToken .wm [0x01, 0x01] = .error .truncatedMatch := by decide
theorem test_decode_wmBadMarker : decodeToken .wm [0b00000010, 0b00000000] = .ok (.wmBadMarker 2, [0]) := by decide

/-- The table's numbering: a 24-bit row has its marker in bits 23 to 16 (log entry 3). -/
theorem test_decodeTableWord_rleRun : decodeTableWord 24 0xFF4103 = some (.rleRun 0x41 3) := by decide
theorem test_decodeTableWord_wmMatch : decodeTableWord 24 0x01030C = some (.wmMatch 3 12) := by decide
theorem test_decodeTableWord_wmLit : decodeTableWord 16 0x0041 = some (.wmLit 0x41) := by decide
theorem test_decodeTableWord_wmDec : decodeTableWord 32 0x13 = some .wmDec := by decide

/-! ## Single steps -/

/-- V-RLE-E5. -/
theorem test_rleEnc : left (exec .rleEnc (loaded [0x41, 0x41, 0x41, 0x42])) =
    some (none, [0xFF, 0x41, 0x03, 0x42], .rle) := by decide
/-- V-RLE-E21: with FFESC = 1 an isolated 0xFF is a run. -/
theorem test_rleEnc_ffesc : rleEnc true [0xFF, 0x41, 0x42] = [0xFF, 0xFF, 0x01, 0x41, 0x42] := by decide
/-- V-RLE-D7. -/
theorem test_rleDec : left (exec .rleDec (loaded [0xFF, 0x41, 0x02, 0x42])) =
    some (none, [0x41, 0x41, 0x42], .rle) := by decide
/-- V-RLE-D4. -/
theorem test_rleDec_malformed : left (exec .rleDec (loaded [0x41, 0xFF, 0x42])) =
    some (some .malformedStream, [], .rle) := by decide
/-- V-WM-E2: its 9 bytes do not fit in 8. -/
theorem test_wmEnc_overflow : left (exec .wmEnc (loaded [0x41, 0x42, 0x43, 0x41, 0x42, 0x43])) =
    some (some .outputOverflow, [], .rle) := by decide
/-- V-WM-E9 with both searches. -/
theorem test_wmEnc : wmEnc 20 3 false [0x58, 0x59, 0x5A, 0x58, 0x59, 0x5A, 0x58, 0x59, 0x5A] =
      [0x00, 0x58, 0x00, 0x59, 0x00, 0x5A, 0x01, 0x03, 0x03, 0x01, 0x06, 0x03] ∧
    wmEnc 20 3 true [0x58, 0x59, 0x5A, 0x58, 0x59, 0x5A, 0x58, 0x59, 0x5A] =
      [0x00, 0x58, 0x00, 0x59, 0x00, 0x5A, 0x01, 0x03, 0x06] := by decide
/-- V-WM-D2: an overlapping copy. -/
theorem test_wmDec : left (exec .wmDec (loaded [0x00, 0x41, 0x00, 0x42, 0x01, 0x02, 0x04])) =
    some (none, [0x41, 0x42, 0x41, 0x42, 0x41, 0x42], .rle) := by decide
/-- V-WM-D12: offset 0. -/
theorem test_wmDec_offset_zero : left (exec .wmDec (loaded [0x00, 0x41, 0x01, 0x00, 0x03])) =
    some (some .malformedStream, [], .rle) := by decide
/-- V-SRC-9: the ratio 3/10 is not above the threshold. -/
theorem test_sel_boundary : left (exec (.sel 0)
    (loaded [0x41, 0x41, 0x42, 0x42, 0x43, 0x43, 0x44, 0x45, 0x46, 0x47])) = some (none, [], .wm) := by decide
/-- R225: two equal bytes select RLE. -/
theorem test_sel_rle : left (exec (.sel 3) { loaded [0x41, 0x41] with resultSel := .wm }) =
    some (none, [], .rle) := by decide
theorem test_cmdNop : exec (.cmdNop 0x7FFFFFFF) (loaded [0x41]) = .next (loaded [0x41]) := rfl
/-- R125: whatever IN_LEN is. -/
theorem test_unsupported : left (exec (.cmdUnsupportedAlg .enc 2) { idle with inLen := 0xFFFFFFFF }) =
    some (some .unsupportedAlgorithm, [], .rle) := by decide
theorem test_illegal : left (exec (.cmdIllegal 0x07) { idle with inLen := 0xFFFFFFFF }) =
    some (some .illegalCommand, [], .rle) := by decide
/-- R126. -/
theorem test_rleDec_badLength : left (exec .rleDec { idle with inLen := 17 }) =
    some (some .badLength, [], .rle) := by decide
/-- R158, R157: the two RLE tokens of `41 FF 42 02`, the first by the core's own turn. -/
theorem test_rleLit : decoded (step (started 0x03 [0x41, 0xFF, 0x42, 0x02] [])) =
    some { pos := 1, out := [0x41], bad := false } := by decide
theorem test_rleRun : decoded (exec (.rleRun 0x42 2) (started 0x03 [0x41, 0xFF, 0x42, 0x02] [])) =
    some { pos := 3, out := [0x42, 0x42], bad := false } := by decide
theorem test_wmLit : decoded (step (started 0x13 [0x00, 0x01] [.token])) =
    some { pos := 2, out := [0x01], bad := false } := by decide
/-- V-WM-D10: no output yet. -/
theorem test_wmMatch_first : decoded (step (started 0x13 [0x01, 0x01, 0x01] [])) =
    some { pos := 0, out := [], bad := true } := by decide
/-- V-WM-D14. -/
theorem test_wmBadMarker : decoded (step (started 0x13 [0x02, 0x00] [])) =
    some { pos := 0, out := [], bad := true } := by decide
/-- V-RLE-D2: a truncated token fails where it stands. -/
theorem test_truncated : decoded (step (started 0x03 [0xFF] [])) = some { pos := 0, out := [], bad := true } := by decide

/-! ## Witnesses: states and operands that meet the hypotheses of each obligation

Of a statement with clauses over one input there is one for each clause, at a boundary of its range. -/

/-- A decode on `x` accepted and nothing pending, its decoder at `d`. -/
def standing (w : Word) (x : List Byte) (d : Decoder) (es : List Event) : State :=
  { started w x es with flight := some { flight w x with decoder := d } }

theorem witness_CommandMapByMatchAndMask :
    (0x00000035#32 &&& 0xFFFFFFCF#32 = 0x00000005) ∧ (0xFFFFFFFE#32 &&& 0x00000001#32 = 0) ∧
    (0x00000021#32 &&& 0xFFFFFFED#32 = 0x00000021) ∧ (0x00000033#32 &&& 0xFFFFFFED#32 = 0x00000021) ∧
    (0x00000005#32 &&& 0x00000001#32 ≠ 0 ∧ 0x00000005#32 &&& 0xFFFFFFED#32 ≠ 0x00000021) := by decide

/-- An illegal word that is none of the rows above it: OP = 3 (bit 3, bit 6 and bit 31 next). -/
theorem witness_CommandMapByMatchAndMask_illegal :
    0x00000007#32 ≠ 0x00000001 ∧ 0x00000007#32 ≠ 0x00000003 ∧ 0x00000007#32 ≠ 0x00000011 ∧
    0x00000007#32 ≠ 0x00000013 ∧ 0x00000007#32 &&& 0xFFFFFFCF#32 ≠ 0x00000005 ∧
    0x00000007#32 &&& 0x00000001#32 ≠ 0 ∧ 0x00000007#32 &&& 0xFFFFFFED#32 ≠ 0x00000021 :=
  ⟨by decide, by decide, by decide, by decide, by decide, by decide, by decide⟩

theorem witness_CommandMapByMatchAndMask_reserved :
    (0x00000009#32 &&& 0xFFFFFFCF#32 ≠ 0x00000005 ∧ 0x00000009#32 &&& 0xFFFFFFED#32 ≠ 0x00000021) ∧
    (0x00000041#32 &&& 0xFFFFFFCF#32 ≠ 0x00000005 ∧ 0x00000041#32 &&& 0xFFFFFFED#32 ≠ 0x00000021) ∧
    (0x80000001#32 &&& 0xFFFFFFCF#32 ≠ 0x00000005 ∧ 0x80000001#32 &&& 0xFFFFFFED#32 ≠ 0x00000021) := by decide

theorem witness_DecodeOfEncodeIsTheInstruction :
    ∀ i ∈ [Instr.rleEnc, .rleDec, .wmEnc, .wmDec, .sel 3, .cmdNop 0x7FFFFFFF, .cmdUnsupportedAlg .dec 3,
      .cmdIllegal 0xFFFFFFFF, .rleLit 0xFE, .rleRun 0xFF 0, .wmLit 0x01, .wmMatch 0 255, .wmBadMarker 0x02],
      i.wf true = true := by decide

theorem witness_TokenIsReadFromItsOwnBytes :
    decodeToken .rle [0xFE] = .ok (.rleLit 0xFE, []) ∧ decodeToken .rle [0xFF, 0xFF, 0x00] = .ok (.rleRun 0xFF 0, []) ∧
    decodeToken .wm [0x00, 0x00] = .ok (.wmLit 0, []) ∧ decodeToken .wm [0x01, 0x00, 0xFF] = .ok (.wmMatch 0 255, []) ∧
    decodeToken .wm [0x02] = .ok (.wmBadMarker 2, []) := by decide

/-- At the last token of the stream, with the token pending and with nothing pending. -/
theorem witness_StepRunsTheTokenAtTheStreamPosition :
    let d : Decoder := { pos := 1, out := [0x41], bad := false }
    (∀ es ∈ [[Event.token], []],
      (standing 0x03 [0x41, 0x42] d es).flight = some { flight 0x03 [0x41, 0x42] with decoder := d } ∧
      (standing 0x03 [0x41, 0x42] d es).pending = es) ∧
    ({ flight 0x03 [0x41, 0x42] with decoder := d } : Flight).codec bench = some .rle ∧ d.pos < 2 ∧
    decodeToken .rle ([0x41, 0x42].drop d.pos) = .ok (.rleLit 0x42, []) := by decide

theorem witness_StepRunsTheCommandInFlight :
    (started 0x05 [0x41] [.commit]).flight = some (flight 0x05 [0x41]) ∧
    (started 0x05 [0x41] [.commit]).pending = [.commit] := by decide

theorem witness_StepRunsTheWrittenNoOperation :
    (started 0x05 [] [.host (.write 0x18 4 0xFFFFFFFE)]).pending = [.host (.write 0x18 4 0xFFFFFFFE)] ∧
    (0xFFFFFFFE : Word).getLsbD 0 = false := by decide

theorem witness_IdleCoreWaits : idle.flight = none ∧ idle.pending = [] := by decide

/-- For the statements about a token: a decode in flight. -/
theorem witness_LiteralTokensAppendTheirByte : (started 0x03 [0x41] []).flight = some (flight 0x03 [0x41]) := by decide
theorem witness_RleRunAppendsItsCopies :
    (started 0x03 [0xFF, 0x41, 0x00] []).flight = some (flight 0x03 [0xFF, 0x41, 0x00]) := by decide
theorem witness_WmBadMarkerIsMalformed : (started 0x13 [0x02] []).flight = some (flight 0x13 [0x02]) := by decide

/-- The offset at both ends of its range: 1, and the length of the output. -/
theorem witness_WmMatchCopiesByteByByte :
    let d : Decoder := { pos := 4, out := [0x41, 0x42], bad := false }
    (standing 0x13 [0, 0x41, 0, 0x42, 1, 2, 4] d []).flight =
      some { flight 0x13 [0, 0x41, 0, 0x42, 1, 2, 4] with decoder := d } ∧
    ∀ o ∈ [(1 : Byte), 2], 1 ≤ o.toNat ∧ o.toNat ≤ d.out.length := by decide

/-- The offsets just outside that range: 0, and one more than the length of the output. -/
theorem witness_WmMatchOutsideTheOutputIsMalformed :
    let d : Decoder := { pos := 4, out := [0x41, 0x42], bad := false }
    (standing 0x13 [0, 0x41, 0, 0x42, 1, 3, 4] d []).flight =
      some { flight 0x13 [0, 0x41, 0, 0x42, 1, 3, 4] with decoder := d } ∧
    ∀ o ∈ [(0 : Byte), 3], o = 0 ∨ d.out.length < o.toNat := by decide

theorem witness_WmDecodeFailsExactlyOnAMalformedToken : Decoder.fresh.raise.bad = true := by decide

/-- The longest output that fits, and one that is a byte too long; IN_LEN as large as IBUF. -/
theorem witness_RleEncDeliversTheEncoding :
    let x : List Byte := [1, 2, 3, 4, 5, 6, 7, 8]
    ((loaded x).operation.n.toNat ≤ bench.ibufSize ∧ Reference.rleEnc false (loaded x).operation.x = x ∧
      x.length = bench.obufSize) ∧
    ((loaded (x ++ x)).operation.n.toNat = bench.ibufSize ∧
      bench.obufSize < (Reference.rleEnc false (loaded (x ++ x)).operation.x).length) := by decide

theorem witness_WmEncDeliversTheEncoding :
    let x : List Byte := [1, 2, 3, 4]
    ((loaded x).operation.n.toNat ≤ bench.ibufSize ∧
      (Reference.wmEnc 20 3 false (loaded x).operation.x).length = bench.obufSize) ∧
    ((loaded (x ++ [5])).operation.n.toNat ≤ bench.ibufSize ∧
      bench.obufSize < (Reference.wmEnc 20 3 false (loaded (x ++ [5])).operation.x).length) := by decide

/-- An output of 8 bytes, one of 9, and a malformed stream; the last with the decoder half way. -/
theorem witness_RleDecDeliversTheDecoding :
    ((loaded [0xFF, 0x41, 8]).operation.n.toNat ≤ bench.ibufSize ∧
      (loaded [0xFF, 0x41, 8]).operation.decoder.OnRun .rle (loaded [0xFF, 0x41, 8]).operation.x ∧
      Reference.rleDec (loaded [0xFF, 0x41, 8]).operation.x = some (List.replicate 8 0x41)) ∧
    ((loaded [0xFF, 0x41, 9]).operation.decoder.OnRun .rle (loaded [0xFF, 0x41, 9]).operation.x ∧
      Reference.rleDec (loaded [0xFF, 0x41, 9]).operation.x = some (List.replicate 9 0x41)) ∧
    (let s := standing 0x03 [0x41, 0xFF] { pos := 1, out := [0x41], bad := false } []
     s.operation.decoder.OnRun .rle s.operation.x ∧ Reference.rleDec s.operation.x = none) := by
  unfold Decoder.OnRun; decide

theorem witness_WmDecDeliversTheDecoding :
    ((loaded [0, 0x41, 1, 1, 7]).operation.n.toNat ≤ bench.ibufSize ∧
      (loaded [0, 0x41, 1, 1, 7]).operation.decoder.OnRun .wm (loaded [0, 0x41, 1, 1, 7]).operation.x ∧
      Reference.wmDec (loaded [0, 0x41, 1, 1, 7]).operation.x = some (List.replicate 8 0x41)) ∧
    ((loaded [0, 0x41, 1, 1, 8]).operation.decoder.OnRun .wm (loaded [0, 0x41, 1, 1, 8]).operation.x ∧
      Reference.wmDec (loaded [0, 0x41, 1, 1, 8]).operation.x = some (List.replicate 9 0x41)) ∧
    (let s := standing 0x13 [0, 0x41, 1, 0, 3] { pos := 2, out := [0x41], bad := false } []
     s.operation.decoder.OnRun .wm s.operation.x ∧ Reference.wmDec s.operation.x = none) := by
  unfold Decoder.OnRun; decide

theorem witness_SelRecordsTheChoice :
    (loaded [0x41, 0x41]).build.hasSelector = true ∧ (loaded [0x41, 0x41]).operation.n.toNat ≤ bench.ibufSize := by decide

/-- The first length that is too long, with the selector and without. -/
theorem witness_LegalCommandsCheckTheLength :
    bench.ibufSize < ({ idle with inLen := 17 } : State).operation.n.toNat ∧ idle.build.hasSelector = true := by decide

theorem witness_RejectedWordsCommitTheirError :
    ({ idle with build := { bench with hasSelector := false } } : State).build.hasSelector = false := by decide

theorem witness_StartWhileIdleIsAccepted :
    ({ idle with pending := [.host (.write 0x18 4 0x05)] } : State).flight = none ∧
    ({ idle with pending := [.host (.write 0x18 4 0x05)] } : State).pending = [.host (.write 0x18 4 0x05)] ∧
    (0x05 : Word).getLsbD 0 = true := by decide

/-- The first length that is too long. -/
theorem witness_StartWhileIdleIsAccepted_tooLong :
    let s : State := { idle with inLen := 17, pending := [.host (.write 0x18 4 0x01)] }
    s.flight = none ∧ s.pending = [.host (.write 0x18 4 0x01)] ∧ (0x01 : Word).getLsbD 0 = true ∧
    s.build.ibufSize < s.inLen.toNat := by decide

theorem witness_StartWhileBusyIsIgnored :
    (started 0x05 [] [.host (.write 0x18 4 0x05)]).flight = some (flight 0x05 []) ∧
    (started 0x05 [] [.host (.write 0x18 4 0x05)]).pending = [.host (.write 0x18 4 0x05)] := by decide

/-- An accepted command, wherever its decoder stands on its run, meets the invariant. -/
theorem standing_inv (w : Word) (x : List Byte) (d : Decoder) (es : List Event) (hw : cmdStart w = 1)
    (hx : x.length ≤ 16) (hc : (loaded x).ibuf.readAll 0 x.length = x)
    (hd : ∀ c, (flight w x).codec bench = some c → d.OnRun c x)
    (hn : (flight w x).codec bench = none → d = Decoder.fresh) : (standing w x d es).Inv where
  build := by show bench.Legal; decide
  minMatch := by show 3 ≤ ConfigReg.reset.minMatch.toNat; decide
  ibuf := Memory.writeAll_wf (by show 0 + x.length ≤ 16; omega) rfl
  obuf := rfl
  ibufDraw := by
    show ((idle.ibuf).writeAll 0 x).fill < 2
    rw [Memory.writeAll_fill]
    decide
  obufDraw := by show 1 < 2; decide
  outLen := by show (0 : Word).toNat ≤ 8; decide
  flight := by
    intro f hf
    cases hf
    have e : (BitVec.ofNat 32 x.length).toNat = x.length := by
      rw [BitVec.toNat_ofNat, Nat.mod_eq_of_lt (by omega)]
    refine ⟨hw, rfl, rfl, ?_, rfl, rfl, hd, hn⟩
    show x = if (BitVec.ofNat 32 x.length).toNat ≤ 16 then (loaded x).ibuf.readAll 0 (BitVec.ofNat 32 x.length).toNat else []
    rw [e, if_pos hx, hc]

/-- A decode two bytes into its stream. -/
theorem witness_CommitStepCommitsExecute :
    (standing 0x13 [0, 0x41, 1, 1, 4] { pos := 2, out := [0x41], bad := false } [.commit]).Inv := by
  refine standing_inv _ _ _ _ (by decide) (by decide) (by decide) ?_ (by decide)
  intro c hc
  have e : c = .wm := by
    have h : (flight 0x13 [0, 0x41, 1, 1, 4]).codec bench = some .wm := by decide
    rw [h] at hc
    cases hc
    rfl
  subst e
  unfold Decoder.OnRun
  decide

/-- An illegal word in flight, and nothing pending. -/
theorem witness_BusyCoreCommitsWhenLeftAlone :
    (standing 0x07 [0x41] Decoder.fresh []).Inv ∧ (standing 0x07 [0x41] Decoder.fresh []).pending = [] := by
  refine ⟨standing_inv _ _ _ _ (by decide) (by decide) (by decide) (fun c hc => ?_) (fun _ => rfl), rfl⟩
  have h : (flight 0x07 [0x41]).codec bench = none := by decide
  rw [h] at hc
  cases hc

theorem witness_ResultDependsOnlyOnTheSnapshot :
    let s := started 0x01 [0x41] [.commit]
    let s' : State := { s with haz := true, obuf := s.obuf.write 3 7, draws := 9 }
    s.build = s'.build ∧ s.flight = some (flight 0x01 [0x41]) ∧ s'.flight = some (flight 0x01 [0x41]) ∧
    (flight 0x01 [0x41]).word.getLsbD 0 = true ∧ s.pending = [.commit] ∧ s'.pending = [.commit] ∧
    (left (step s)).isSome = true ∧ (left (step s')).isSome = true := by decide

/-- A SEL that commits no error, over two different choices of an earlier one. -/
theorem witness_ResultDependsOnlyOnTheSnapshot_sel :
    let s := started 0x05 [0x41] [.commit]
    let s' : State := { s with resultSel := .wm }
    s.flight = some (flight 0x05 [0x41]) ∧ s'.flight = some (flight 0x05 [0x41]) ∧
    (flight 0x05 [0x41]).word.getLsbD 0 = true ∧ cmdOp (flight 0x05 [0x41]).word = 2 ∧
    s.pending = [.commit] ∧ s'.pending = [.commit] ∧
    left (step s) = some (none, [], .wm) ∧ left (step s') = some (none, [], .wm) := by decide

/-- A token to execute, a truncated one, a decoder at the end and a command that runs no decoder. -/
theorem witness_TokenStepChangesOnlyTheDecoder :
    (standing 0x03 [0x41] Decoder.fresh [.token]).pending = [.token] ∧
    (flight 0x03 [0x41]).codec bench = some .rle ∧ Decoder.fresh.bad = false ∧
    decodeToken .rle [0x41] = .ok (.rleLit 0x41, []) ∧ decodeToken .rle [0xFF] = .error .truncatedRun ∧
    [(0x41 : Byte)].length ≤ (1 : Nat) ∧ (flight 0x01 [0x41]).codec bench = none := by decide

theorem witness_TokenStepDoesNotChangeTheCommit :
    (started 0x03 [0x41] [.token, .commit]).pending = [.token, .commit] ∧
    (decoded (step (started 0x03 [0x41] [.token, .commit]))).isSome = true := by decide

/-- The first and the last unit of each region, and what lies just outside. -/
theorem witness_AddressMapDecides : bench.Legal ∧
    resolve bench 0x00 4 = .ok (.reg .id) ∧ resolve bench 0x24 4 = .ok (.reg .result) ∧
    resolve bench 0x28 4 = .error .unmapped ∧ resolve bench 0x25 4 = .error .registerAccess ∧
    resolve bench 0x10000 4 = .ok (.ibuf 0) ∧ resolve bench 0x1000F 1 = .ok (.ibuf 15) ∧
    resolve bench 0x10010 1 = .error .unmapped ∧ resolve bench 0x10001 2 = .error .bufferAccess ∧
    resolve bench 0x20000 1 = .ok (.obuf 0) ∧ resolve bench 0x20004 4 = .ok (.obuf 4) ∧
    resolve bench 0x20008 4 = .error .unmapped ∧ resolve bench 0x40000 4 = .error .unmapped := by decide

theorem witness_BusErrorChangesNothing :
    resolve idle.build 0x28 4 = .error .unmapped ∧
    ({ idle with pending := [.host (.read 0x28 4)] } : State).pending = [.host (.read 0x28 4)] ∧
    ({ idle with pending := [.host (.write 0x28 4 1)] } : State).pending = [.host (.write 0x28 4 1)] := by decide

theorem witness_RegisterReadHasNoSideEffect :
    ({ idle with pending := [.host (.read Reg.status.offset 4)] } : State).pending =
      [.host (.read Reg.status.offset 4)] := by decide

/-- Both values of RESULT.SEL. -/
theorem witness_RegisterReadHasNoSideEffect_result :
    idle.resultSel = .rle ∧ ({ idle with resultSel := .wm } : State).resultSel = .wm := by decide

/-- No error, and each of the five. -/
theorem witness_StatusReadsItsFields : idle.err = none ∧
    ∀ e ∈ [CmdError.malformedStream, .unsupportedAlgorithm, .outputOverflow, .badLength, .illegalCommand],
      ({ idle with err := some e } : State).err = some e := by decide

theorem witness_BufferReadIsLittleEndian :
    ({ idle with pending := [.host (.read 0x1000C 4)] } : State).pending = [.host (.read 0x1000C 4)] ∧
    resolve idle.build 0x1000C 4 = .ok (.ibuf 12) ∧
    ({ idle with pending := [.host (.read 0x20007 1)] } : State).pending = [.host (.read 0x20007 1)] ∧
    resolve idle.build 0x20007 1 = .ok (.obuf 7) ∧ idle.flight = none := by decide

theorem witness_BufferWriteIsLittleEndian :
    ({ idle with pending := [.host (.write 0x1000C 4 0x44434241)] } : State).pending =
      [.host (.write 0x1000C 4 0x44434241)] ∧ resolve idle.build 0x1000C 4 = .ok (.ibuf 12) ∧
    ({ idle with pending := [.host (.write 0x20006 2 0x4241)] } : State).pending =
      [.host (.write 0x20006 2 0x4241)] ∧ resolve idle.build 0x20006 2 = .ok (.obuf 6) ∧ idle.flight = none := by decide

theorem witness_ObufReadWhileBusyOnlyDraws :
    (started 0x01 [0x41] [.host (.read 0x20004 4)]).flight = some (flight 0x01 [0x41]) ∧
    (started 0x01 [0x41] [.host (.read 0x20004 4)]).pending = [.host (.read 0x20004 4)] ∧
    resolve bench 0x20004 4 = .ok (.obuf 4) := by decide

/-- One write to each of the four targets. -/
theorem witness_WriteWhileBusyIsIgnored :
    (∀ a ∈ [0x10, 0x14, 0x1000C, 0x20004],
      (started 0x01 [0x41] [.host (.write a 4 1)]).flight = some (flight 0x01 [0x41]) ∧
      (started 0x01 [0x41] [.host (.write a 4 1)]).pending = [.host (.write a 4 1)]) ∧
    resolve bench 0x10 4 = .ok (.reg .config) ∧ resolve bench 0x14 4 = .ok (.reg .inLen) ∧
    resolve bench 0x1000C 4 = .ok (.ibuf 12) ∧ resolve bench 0x20004 4 = .ok (.obuf 4) := by decide

theorem witness_ReadOnlyRegistersIgnoreWrites :
    ∀ r ∈ [Reg.id, .cap, .ibufSize, .obufSize, .outLen, .result],
      (r = .id ∨ r = .cap ∨ r = .ibufSize ∨ r = .obufSize ∨ r = .outLen ∨ r = .result) ∧
      (started 0x01 [] [.host (.write r.offset 4 1)]).pending = [.host (.write r.offset 4 1)] := by decide

theorem witness_ConfigReadsBackLegalised :
    ({ idle with pending := [.host (.write 0x10 4 0xFFFF0214)] } : State).flight = none ∧
    ({ idle with pending := [.host (.write 0x10 4 0xFFFF0214)] } : State).pending =
      [.host (.write 0x10 4 0xFFFF0214)] ∧
    ({ idle with config := ConfigReg.ofWord 0xFFFF0214 } : State).config = ConfigReg.ofWord 0xFFFF0214 := by decide

theorem witness_InLenHoldsEveryValue :
    ({ idle with pending := [.host (.write 0x14 4 0xFFFFFFFF)] } : State).flight = none ∧
    ({ idle with pending := [.host (.write 0x14 4 0xFFFFFFFF)] } : State).pending =
      [.host (.write 0x14 4 0xFFFFFFFF)] := by decide

theorem witness_StatusWriteOneClears :
    (started 0x01 [] [.host (.write 0x1C 4 0x00010002)]).pending = [.host (.write 0x1C 4 0x00010002)] := by decide

theorem witness_InterruptRisesAtCommitAndFalls :
    (0x00000002 : Word).getLsbD 1 = true ∧ idle.flight = none ∧ (0x00000314 : Word).getLsbD 17 = false ∧
    ({ idle with done := true, pending := [.host (.write 0x10 4 0x00020314)] } : State).flight = none ∧
    ({ idle with done := true, pending := [.host (.write 0x10 4 0x00020314)] } : State).pending =
      [.host (.write 0x10 4 0x00020314)] ∧ (0x00020314 : Word).getLsbD 17 = true := by decide

/-- V-CMD-27: DONE = 1 and IE = 0, then a write that sets IE, raises `irq`. -/
theorem test_irq_rises_with_ie :
    ({ idle with done := true } : State).irq = false ∧
    (({ idle with done := true } : State).writeReg .config 0x00020314).irq = true := by decide

theorem witness_ResetGivesTheStatedValues :
    (started 0x01 [0x41] [.reset]).pending = [.reset] ∧ (started 0x01 [0x41] [.reset]).build = bench := by decide

theorem witness_ResetDiscardsTheCommandAndTheBuffers : (started 0x01 [0x41] [.reset]).pending = [.reset] := by decide

/-- The smallest and the largest legal build. -/
theorem witness_ResetMeetsTheInvariant :
    ({ ibufSize := 1, obufSize := 1, hasSelector := false, wmOverlap := true } : Build).Legal ∧
    ({ ibufSize := 65536, obufSize := 65536, hasSelector := true, wmOverlap := false } : Build).Legal := by decide

theorem witness_EveryStepKeepsTheInvariant :
    (standing 0x07 [0x41] Decoder.fresh [.commit]).Inv ∧
    (left (step (standing 0x07 [0x41] Decoder.fresh [.commit]))).isSome = true := by
  refine ⟨standing_inv _ _ _ _ (by decide) (by decide) (by decide) (fun c hc => ?_) (fun _ => rfl), by decide⟩
  have h : (flight 0x07 [0x41]).codec bench = none := by decide
  rw [h] at hc
  cases hc

theorem witness_SoundHostNeverFaults :
    ({ idle with pending := [.host (.write 0x18 4 0x05), .poll 0x1C 2 2, .host (.read 0x20000 4), .reset] } :
      State).hostSound = true := by decide

theorem witness_RleRoundTrip :
    (∀ p ∈ Reference.chunks [0xFF, 0xFF, 0xFF, 0x41], p.1 = 0xFF → 3 ≤ p.2) ∧ (0xFF : Byte) ∉ [(0xFE : Byte), 0x00] := by
  decide

theorem witness_WmRoundTrip : 3 ≤ (3 : Byte).toNat := by decide

theorem witness_RunsSplitIntoChunks :
    (∀ len ∈ [1, 255, 256], 1 ≤ len) ∧ ([] : List Byte).head? ≠ some 0x41 ∧ [(0x42 : Byte)].head? ≠ some 0x41 := by
  decide

theorem witness_DecodedLengthIsBounded :
    Decoder.fresh.finish .rle [0xFF, 0x41, 0x02] = .bytes [0x41, 0x41] ∧
    Decoder.fresh.finish .wm [0x00, 0x41] = .bytes [0x41] := by decide

/-- The cap by the position without the overlapping search, and the cap by the end of input with it. -/
theorem witness_CandidateIsMaximal :
    (0 < 1 ∧ 1 ≤ [(0x41 : Byte), 0x41, 0x41].length) ∧
    wmMatchLen false [0x41, 0x41, 0x41] 0 1 = 1 ∧ wmMatchLen true [0x41, 0x41, 0x41] 0 1 = 2 := by decide

/-- An empty window and a tie between two offsets. -/
theorem witness_SearchPrefersTheOldestLongest :
    wmSearch false 20 [0x41, 0x42, 0x41, 0x42, 0x41, 0x42] 0 = { len := 0, off := 0 } ∧
    wmSearch false 20 [0x41, 0x42, 0x43, 0x41, 0x42, 0x44, 0x41, 0x42] 6 = { len := 2, off := 6 } ∧
    (6 - 20 ≤ 0 ∧ 0 < 6 ∧ 6 - 20 ≤ 3 ∧ 3 < 6) := by decide

theorem witness_EncoderMatchRanges :
    3 ≤ (3 : Byte).toNat ∧ 3 ≤ [(0x41 : Byte), 0x42, 0x43, 0x41, 0x42, 0x43].length ∧
    (3 : Byte).toNat ≤ (wmSearch false (20 : Byte).toNat [0x41, 0x42, 0x43, 0x41, 0x42, 0x43] 3).len := by decide

/-- The decoder in front of the one match of "ABCABC" (R197's example), and a window smaller than M. -/
theorem witness_EncoderMatchRanges_written :
    let x : List Byte := [0x41, 0x42, 0x43, 0x41, 0x42, 0x43]
    let d := Decoder.run .wm (wmEnc 20 3 false x) 3 Decoder.fresh
    d.out.length = 3 ∧ decodeToken .wm ((wmEnc 20 3 false x).drop d.pos) = .ok (.wmMatch 3 3, []) ∧
    (2 : Byte).toNat < (3 : Byte).toNat := by decide

theorem witness_WmEncodingLength : 3 ≤ (255 : Byte).toNat := by decide

theorem witness_SelectorThresholdIsExact : [(0x41 : Byte)] ≠ [] ∧ [(0x41 : Byte)].length ≤ 65536 := by decide

end Sys2Proof.Tests
end

section
/-! SUPPORT. The state family: what a register write does as a step, the fields of CONFIG and STATUS, the token step as a
function of the command in flight, and the machine's invariant along every step. -/

namespace Sys2Proof.Machine

/-! ## Register writes as steps -/

/-- A host write to a register other than CMD is the register's own rule, with the response `OK`. -/
theorem step_writeReg {s : State} {r : Reg} {v : Word} {es : List Event}
    (he : s.pending = .host (.write r.offset 4 v) :: es) (hr : r ≠ .cmd) :
    step s = .next ((({ s with pending := es } : State).writeReg r v).respond .ok) :=
  step_write he (resolve_reg s.build r) fun h => hr (Target.reg.inj h)

/-- No command in flight is BUSY = 0 (R37). -/
theorem State.busy_eq_false {s : State} : s.busy = false ↔ s.flight = none := by
  simp [State.busy]

theorem State.writeReg_config_idle {s : State} (h : s.flight = none) (v : Word) :
    s.writeReg .config v = { s with config := ConfigReg.ofWord v } := by
  simp [State.writeReg, State.busy_eq_false.2 h]

theorem State.writeReg_inLen_idle {s : State} (h : s.flight = none) (v : Word) :
    s.writeReg .inLen v = { s with inLen := v } := by
  simp [State.writeReg, State.busy_eq_false.2 h]

/-- The write-one-to-clear rule of STATUS as two choices on the value's bits (R38, R40). -/
theorem State.writeStatus_eq (v : Word) (s : State) :
    s.writeStatus v = { s with done := if v.getLsbD 1 = true then false else s.done,
                               haz := if v.getLsbD 16 = true then false else s.haz } := by
  unfold State.writeStatus
  cases v.getLsbD 1 <;> cases v.getLsbD 16 <;> simp

/-- Settles O40: each of the six registers has a write rule that returns the state. -/
theorem readOnlyRegistersIgnoreWrites : Obligations.ReadOnlyRegistersIgnoreWrites := by
  intro s r v es hr he
  have hcmd : r ≠ .cmd := by rintro rfl; simp at hr
  rw [step_writeReg he hcmd]
  obtain rfl | rfl | rfl | rfl | rfl | rfl := hr <;> rfl

/-- Settles O42, by the write rule of IN_LEN on an idle core. -/
theorem inLenHoldsEveryValue : Obligations.InLenHoldsEveryValue := by
  intro s v es hidle he
  rw [step_writeReg (r := .inLen) he (by decide), State.writeReg_inLen_idle (by exact hidle)]
  rfl

/-- Settles O44, by the write-one-to-clear rule, which asks nothing of BUSY. -/
theorem statusWriteOneClears : Obligations.StatusWriteOneClears := by
  intro s v es he
  rw [step_writeReg (r := .status) he (by decide), State.writeReg, State.writeStatus_eq]
  rfl

/-! ## The fields of CONFIG (R28 to R33) -/

namespace ConfigReg

@[simp] theorem word_window (c : ConfigReg) : c.word.extractLsb' 0 8 = c.window := by
  simp (disch := decide) only [word, BitVec.extractLsb'_append_eq_of_add_le, BitVec.extractLsb'_eq_self]

@[simp] theorem word_minMatch (c : ConfigReg) : c.word.extractLsb' 8 8 = c.minMatch := by
  simp (disch := decide) only [word, BitVec.extractLsb'_append_eq_of_le, BitVec.extractLsb'_append_eq_of_add_le,
    Nat.reduceSub, BitVec.extractLsb'_eq_self]

@[simp] theorem word_ffesc (c : ConfigReg) : c.word.getLsbD 16 = c.ffesc := by
  simp only [word, BitVec.getLsbD_append]
  simp

@[simp] theorem word_ie (c : ConfigReg) : c.word.getLsbD 17 = c.ie := by
  simp only [word, BitVec.getLsbD_append]
  simp

@[simp] theorem word_reserved (c : ConfigReg) : c.word.extractLsb' 18 14 = 0 := by
  simp (disch := decide) only [word, BitVec.extractLsb'_append_eq_of_le, Nat.reduceSub]
  rfl

/-- R30: MIN_MATCH becomes the larger of the value written and 3. -/
theorem ofWord_minMatch_toNat (v : Word) : (ofWord v).minMatch.toNat = max (v.extractLsb' 8 8).toNat 3 := by
  simp only [ofWord]
  split_ifs with h
  · exact (max_eq_right h.le).symm
  · exact (max_eq_left (not_lt.1 h)).symm

end ConfigReg

/-- Settles O41: the register stored is `ConfigReg.ofWord` of the value, and a read gives its fields back. -/
theorem configReadsBackLegalised : Obligations.ConfigReadsBackLegalised := by
  intro s v es hidle he
  refine ⟨ConfigReg.ofWord v, ?_, ?_⟩
  · rw [step_writeReg (r := .config) he (by decide), State.writeReg_config_idle (by exact hidle)]
    rfl
  · intro t ht
    simp only [State.readReg, ht, ConfigReg.word_window, ConfigReg.word_minMatch, ConfigReg.word_ffesc,
      ConfigReg.word_ie, ConfigReg.word_reserved, ConfigReg.ofWord_minMatch_toNat]
    exact ⟨rfl, trivial, rfl, rfl, trivial⟩

/-! ## The fields of STATUS (R36 to R40) -/

namespace State

theorem statusWord_busy (s : State) : s.statusWord.getLsbD 0 = s.busy := by
  simp only [statusWord, BitVec.getLsbD_append]
  simp

theorem statusWord_done (s : State) : s.statusWord.getLsbD 1 = s.done := by
  simp only [statusWord, BitVec.getLsbD_append]
  simp

theorem statusWord_haz (s : State) : s.statusWord.getLsbD 16 = s.haz := by
  simp only [statusWord, BitVec.getLsbD_append]
  simp

theorem statusWord_err (s : State) : s.statusWord.extractLsb' 8 3 = s.errCode := by
  simp (disch := decide) only [statusWord, BitVec.extractLsb'_append_eq_of_le,
    BitVec.extractLsb'_append_eq_of_add_le, Nat.reduceSub, BitVec.extractLsb'_eq_self]

/-- The three reserved fields read 0 (R36). -/
theorem statusWord_reserved (s : State) :
    s.statusWord.extractLsb' 2 6 = 0 ∧ s.statusWord.extractLsb' 11 5 = 0 ∧ s.statusWord.extractLsb' 17 15 = 0 := by
  simp (disch := decide) only [statusWord, BitVec.extractLsb'_append_eq_of_le,
    BitVec.extractLsb'_append_eq_of_add_le, Nat.reduceSub]
  exact ⟨rfl, rfl, rfl⟩

end State

/-- Settles O43, field by field; the codes are those of `CmdError.code`. -/
theorem statusReadsItsFields : Obligations.StatusReadsItsFields := by
  intro s
  obtain ⟨low, mid, high⟩ := s.statusWord_reserved
  simp only [State.readReg, State.statusWord_err]
  refine ⟨s.statusWord_busy, s.statusWord_done, low, trivial, mid, s.statusWord_haz, high, ?_⟩
  refine ⟨?_, ?_, ?_, ?_, ?_, ?_⟩ <;> (intro h; simp only [State.errCode, h, CmdError.code])

/-! ## Token steps -/

/-- What a token step leaves of the decoder of the command `f` in flight: one round of its loop where `f` is a decode with
a token to execute, and the decoder as it stands otherwise. -/
def Flight.decoderTurn (b : Build) (f : Flight) : Decoder :=
  match f.codec b with
  | none => f.decoder
  | some c => if f.decoder.active f.x then f.decoder.tokenStep c f.x else f.decoder

theorem Flight.decoderTurn_noCodec {b : Build} {f : Flight} (h : f.codec b = none) : f.decoderTurn b = f.decoder := by
  simp only [Flight.decoderTurn, h]

theorem Flight.decoderTurn_inactive (b : Build) {f : Flight} (h : ¬ f.decoder.active f.x) :
    f.decoderTurn b = f.decoder := by
  unfold Flight.decoderTurn
  split
  · rfl
  · exact if_neg h

theorem Flight.decoderTurn_active {b : Build} {f : Flight} {c : Codec} (hc : f.codec b = some c)
    (h : f.decoder.active f.x) : f.decoderTurn b = f.decoder.tokenStep c f.x := by
  simp only [Flight.decoderTurn, hc, if_pos h]

/-- With no token ready, the turn leaves the decoder of whatever is in flight. -/
theorem Flight.decoderTurn_notReady {s : State} {f : Flight} (hf : s.flight = some f) (h : s.tokenReady = none) :
    f.decoderTurn s.build = f.decoder := by
  cases hc : f.codec s.build with
  | none => exact Flight.decoderTurn_noCodec hc
  | some c =>
    refine Flight.decoderTurn_inactive _ fun ha => ?_
    rw [State.tokenReady_eq hf hc ha] at h
    cases h

/-- The token step in every state: the turn of the decoder of the command in flight, and nothing else. -/
theorem tokenTurn_eq_decoderTurn (s : State) :
    tokenTurn s = .next { s with flight := s.flight.map fun f => { f with decoder := f.decoderTurn s.build } } := by
  cases h : s.tokenReady with
  | some p =>
    obtain ⟨c, f⟩ := p
    obtain ⟨hf, hc, ha⟩ := State.tokenReady_some h
    rw [tokenTurn_eq h, hf, Option.map_some, Flight.decoderTurn_active hc ha]
  | none =>
    have hid : (s.flight.map fun f => { f with decoder := f.decoderTurn s.build }) = s.flight := by
      cases hf : s.flight with
      | none => rfl
      | some f => rw [Option.map_some, Flight.decoderTurn_notReady hf h]
    rw [tokenTurn_none h, hid]

theorem step_token {s : State} {es : List Event} (he : s.pending = .token :: es) :
    step s = tokenTurn { s with pending := es } := by
  simp only [step, he, eventTurn]

theorem step_commit {s : State} {es : List Event} (he : s.pending = .commit :: es) :
    step s = commitTurn { s with pending := es } := by
  simp only [step, he, eventTurn]

/-- On a token that fits, the token step is the instruction at the decoder's position. -/
theorem tokenTurn_exec {s : State} {f : Flight} {c : Codec} {i : Instr} {rest : List Byte}
    (h : s.tokenReady = some (c, f)) (hi : decodeToken c (f.x.drop f.decoder.pos) = .ok (i, rest)) :
    tokenTurn s = exec i s := by
  simp only [tokenTurn, h, Decoder.fetch, hi]

/-- Settles O7: the token is ready, so both the token input and the core's own move execute it. -/
theorem stepRunsTheTokenAtTheStreamPosition : Obligations.StepRunsTheTokenAtTheStreamPosition := by
  intro s f c i rest hf hc hb hp hi
  refine ⟨fun es he => ?_, fun he => ?_⟩
  · have ready : ({ s with pending := es } : State).tokenReady = some (c, f) := State.tokenReady_eq hf hc ⟨hb, hp⟩
    rw [step_token he, tokenTurn_exec ready hi]
  · have ready : s.tokenReady = some (c, f) := State.tokenReady_eq hf hc ⟨hb, hp⟩
    simp only [step, he, engineTurn, ready]
    exact tokenTurn_exec ready hi

/-- Settles O31: `Flight.decoderTurn` is the whole effect, and each case of it is one of the statement's. -/
theorem tokenStepChangesOnlyTheDecoder : Obligations.TokenStepChangesOnlyTheDecoder := by
  intro s es he
  refine ⟨Flight.decoderTurn s.build, ?_, fun f _ => ⟨Flight.decoderTurn_noCodec, fun hend => ?_, ?_⟩⟩
  · rw [step_token he, tokenTurn_eq_decoderTurn]
  · refine Flight.decoderTurn_inactive _ fun ⟨hb, hp⟩ => ?_
    rcases hend with bad | atEnd
    · exact Bool.noConfusion (hb.symm.trans bad)
    · omega
  · intro c hc hb hp
    rw [Flight.decoderTurn_active hc ⟨hb, hp⟩]
    exact ⟨fun i rest hi => Decoder.tokenStep_ok hi, fun e hi => Decoder.tokenStep_error hi⟩

/-! ## The commit of a decode -/

/-- A round of the loop does not change the result the run ends in. -/
theorem Decoder.finish_tokenStep (c : Codec) {x : List Byte} {d : Decoder} (h : d.active x) :
    (d.tokenStep c x).finish c x = d.finish c x := by
  rw [Decoder.finish, Decoder.run_tokenStep c x h, Decoder.finish]

/-- The commit of a command that runs a decoder is the value its decoder runs to, fitted into OBUF. -/
theorem commitTurn_decode {s : State} {f : Flight} {c : Codec} (hf : s.flight = some f)
    (hc : f.codec s.build = some c) :
    commitTurn s = .next (s.commit (fitResult s.build (f.decoder.finish c f.x))) := by
  obtain ⟨hn, hi⟩ := Flight.codec_some hc
  have hop := State.operation_flight hf
  have hchecked : s.checked (fun f => f.decoder.finish c f.x) = fitResult s.build (f.decoder.finish c f.x) := by
    rw [State.checked_legal _ (by rwa [hop]), hop]
  rw [commitTurn_busy hf, hi, ← hchecked]
  cases c <;> rfl

/-- A token step before a commit does not show in what the commit leaves. -/
theorem commitTurn_of_tokenTurn {s t : State} (h : tokenTurn s = .next t) : commitTurn t = commitTurn s := by
  cases hr : s.tokenReady with
  | none =>
    rw [tokenTurn_none hr] at h
    cases h
    rfl
  | some p =>
    obtain ⟨c, f⟩ := p
    obtain ⟨hf, hc, ha⟩ := State.tokenReady_some hr
    rw [tokenTurn_eq hr] at h
    cases h
    have hstepped := commitTurn_decode
      (s := { s with flight := some { f with decoder := f.decoder.tokenStep c f.x } }) rfl hc
    rw [hstepped, commitTurn_decode hf hc, Decoder.finish_tokenStep c ha, State.commit_flight]

/-- Settles O32: the token step keeps what is pending, and the commit after it is the commit before it. -/
theorem tokenStepDoesNotChangeTheCommit : Obligations.TokenStepDoesNotChangeTheCommit := by
  intro s t es he ht
  rw [step_token he, tokenTurn_eq_decoderTurn] at ht
  cases ht
  rw [step_commit rfl, step_commit rfl]
  exact commitTurn_of_tokenTurn (tokenTurn_eq_decoderTurn { s with pending := es })

/-! ## Results that fit -/

/-- A result whose output, where it has one, fits in OBUF (R130): what every commit commits. -/
def Result.Fits (b : Build) (r : Result) : Prop := ∀ y, r = .bytes y → y.length ≤ b.obufSize

theorem Result.fits_error (b : Build) (e : CmdError) : (Result.error e).Fits b := nofun

theorem Result.fits_choice (b : Build) (c : Codec) : (Result.choice c).Fits b := nofun

theorem fitResult_fits (b : Build) (r : Result) : (fitResult b r).Fits b := by
  cases r with
  | choice c => exact Result.fits_choice b c
  | error e => exact Result.fits_error b e
  | bytes y =>
    rw [fitResult_bytes]
    split_ifs with h
    · rintro _ ⟨⟩
      exact h
    · exact Result.fits_error b _

theorem State.checked_fits (s : State) (f : Flight → Result) : (s.checked f).Fits s.build := by
  unfold State.checked
  split_ifs
  · exact Result.fits_error _ _
  · exact fitResult_fits _ _

/-- Every command word with START = 1 runs to the commit of a result that fits. -/
theorem exec_decodeCommand_commits (hasSelector : Bool) {w : Word} (hw : cmdStart w = 1) (s : State) :
    ∃ r : Result, r.Fits s.build ∧ exec (decodeCommand hasSelector w) s = .next (s.commit r) := by
  have hnop : cmdStart w ≠ 0 := by simp [hw]
  unfold decodeCommand
  rw [if_neg hnop]
  split_ifs
  · exact ⟨_, Result.fits_error _ _, rfl⟩
  · refine ⟨_, ?_, rfl⟩
    split_ifs
    · exact s.checked_fits _
    · exact Result.fits_error _ _
  · exact ⟨_, Result.fits_error _ _, rfl⟩
  · exact ⟨_, Result.fits_error _ _, rfl⟩
  all_goals exact ⟨_, s.checked_fits _, rfl⟩

/-! ## The invariant, operation by operation -/

namespace State.Inv

/-- The invariant says nothing of HAZ, RESULT, the response and what is pending, and new draws keep it. -/
theorem bookkeeping {s : State} (h : s.Inv) {draws : Nat} (hd : s.draws ≤ draws) (haz : Bool) (sel : Codec)
    (response : Option Response) (pending : List Event) :
    ({ s with haz := haz, resultSel := sel, draws := draws, response := response, pending := pending } : State).Inv :=
  { h with
    ibufDraw := h.ibufDraw.trans_le hd
    obufDraw := h.obufDraw.trans_le hd
    flight := fun f hf => { h.flight f hf with } }

theorem withPending {s : State} (h : s.Inv) (es : List Event) : ({ s with pending := es } : State).Inv :=
  h.bookkeeping le_rfl s.haz s.resultSel s.response es

theorem respond {s : State} (h : s.Inv) (r : Response) : (s.respond r).Inv :=
  h.bookkeeping le_rfl s.haz s.resultSel (some r) s.pending

theorem hazard {s : State} (h : s.Inv) : s.hazard.Inv :=
  h.bookkeeping le_rfl true s.resultSel s.response s.pending

theorem afterObufRead {s : State} (h : s.Inv) : s.afterObufRead.Inv := by
  refine h.bookkeeping ?_ s.haz s.resultSel s.response s.pending
  split_ifs
  · exact Nat.le_succ _
  · exact le_rfl

/-- An output that fits is committed within OBUF, and its length fits OUT_LEN (R41, R129). -/
theorem commitBytes {s : State} (h : s.Inv) {y : List Byte} (hy : y.length ≤ s.build.obufSize) :
    (s.commitBytes y).Inv :=
  { h with
    obuf := Memory.writeAll_wf ((Nat.zero_add _).trans_le hy) h.obuf
    obufDraw := by simpa using h.obufDraw
    outLen := by
      have := h.build.2.2
      rw [commitBytes_outLen, BitVec.toNat_ofNat, Nat.mod_eq_of_lt (by omega)]
      exact hy
    flight := nofun }

theorem commitChoice {s : State} (h : s.Inv) (c : Codec) : (s.commitChoice c).Inv :=
  { h with outLen := Nat.zero_le _, flight := nofun }

/-- A lost OBUF is the draw just made (R132). -/
theorem takeError {s : State} (h : s.Inv) (e : CmdError) : (s.takeError e).Inv := by
  have hi := h.ibufDraw
  have ho := h.obufDraw
  cases he : e.losesOutput with
  | true =>
    exact { h with
      obuf := by simp [he]
      ibufDraw := by simp [he]; omega
      obufDraw := by simp [he]
      outLen := Nat.zero_le _
      flight := nofun }
  | false =>
    exact { h with
      obuf := by simpa [he] using h.obuf
      ibufDraw := by simpa [he] using hi
      obufDraw := by simpa [he] using ho
      outLen := Nat.zero_le _
      flight := nofun }

theorem commit {s : State} (h : s.Inv) {r : Result} (hr : r.Fits s.build) : (s.commit r).Inv := by
  cases r with
  | bytes y => exact h.commitBytes (hr y rfl)
  | choice c => exact h.commitChoice c
  | error e => exact h.takeError e

/-- Reset needs only a legal build: every other field takes its stated value (R270 to R272). -/
theorem resetStep {s : State} (h : s.Inv) : s.resetStep.Inv where
  build := h.build
  minMatch := show 3 ≤ ConfigReg.reset.minMatch.toNat by decide
  ibuf := rfl
  obuf := rfl
  ibufDraw := by simp
  obufDraw := by simp
  outLen := Nat.zero_le _
  flight := nofun

/-- An accepted command is in flight with the snapshot of the live registers and a fresh decoder (R123). -/
theorem accept {s : State} (h : s.Inv) {w : Word} (hw : cmdStart w = 1) : (s.accept w).Inv :=
  { h with
    flight := by
      rintro _ ⟨⟩
      exact ⟨hw, rfl, rfl, rfl, rfl, rfl, fun _ _ => rfl, fun _ => rfl⟩ }

/-! ### The host's writes -/

theorem writeCmd {s : State} (h : s.Inv) (w : Word) : (s.writeCmd w).Inv := by
  unfold State.writeCmd
  split_ifs with hw
  · exact h
  · exact h.hazard
  · exact h.accept (by bv_omega)

/-- DONE only falls, so it stays 0 while busy. -/
theorem writeStatus {s : State} (h : s.Inv) (v : Word) : (s.writeStatus v).Inv :=
  { h with
    flight := fun f hf => { h.flight f hf with done := by simp [(h.flight f hf).done] } }

theorem writeConfig {s : State} (h : s.Inv) (hidle : s.flight = none) (v : Word) :
    ({ s with config := ConfigReg.ofWord v } : State).Inv :=
  { h with
    minMatch := (le_max_right _ _).trans_eq (ConfigReg.ofWord_minMatch_toNat v).symm
    flight := fun f hf => by simp [hidle] at hf }

theorem writeInLen {s : State} (h : s.Inv) (hidle : s.flight = none) (v : Word) :
    ({ s with inLen := v } : State).Inv :=
  { h with flight := fun f hf => by simp [hidle] at hf }

theorem writeReg {s : State} (h : s.Inv) (r : Reg) (v : Word) : (s.writeReg r v).Inv := by
  cases r with
  | config =>
    unfold State.writeReg
    split_ifs with hb
    · exact h.hazard
    · exact h.writeConfig (busy_eq_false.1 (by simpa using hb)) v
  | inLen =>
    unfold State.writeReg
    split_ifs with hb
    · exact h.hazard
    · exact h.writeInLen (busy_eq_false.1 (by simpa using hb)) v
  | cmd => exact h.writeCmd v
  | status => exact h.writeStatus v
  | id | cap | ibufSize | obufSize | outLen | result => exact h

theorem writeIbuf {s : State} (h : s.Inv) {k : Nat} {bytes : List Byte} (hk : k + bytes.length ≤ s.build.ibufSize) :
    (s.writeIbuf k bytes).Inv := by
  unfold State.writeIbuf
  split_ifs with hb
  · exact h.hazard
  · have hidle : s.flight = none := busy_eq_false.1 (by simpa using hb)
    exact { h with
      ibuf := Memory.writeAll_wf hk h.ibuf
      ibufDraw := by simpa using h.ibufDraw
      flight := fun f hf => by simp [hidle] at hf }

theorem writeObuf {s : State} (h : s.Inv) {k : Nat} {bytes : List Byte} (hk : k + bytes.length ≤ s.build.obufSize) :
    (s.writeObuf k bytes).Inv := by
  unfold State.writeObuf
  split_ifs with hb
  · exact h.hazard
  · exact { h with
      obuf := Memory.writeAll_wf hk h.obuf
      obufDraw := by simpa using h.obufDraw
      flight := fun f hf => { h.flight f hf with } }

/-! ### Transactions and turns -/

theorem readTarget {s : State} (h : s.Inv) (target : Target) (n : Nat) : (s.readTarget target n).2.Inv := by
  cases target with
  | reg r => exact h
  | ibuf k => exact h
  | obuf k => exact h.afterObufRead

/-- A write that gets `OK` stays inside its buffer (R63, R66). -/
theorem writeTarget {s : State} (h : s.Inv) {a n : Nat} {target : Target} (ht : resolve s.build a n = .ok target)
    (v : Word) : (s.writeTarget target n v).Inv := by
  obtain ⟨r, rfl, -, -⟩ | ⟨k, rfl, -, -, hk⟩ | ⟨k, rfl, -, -, hk⟩ := resolve_ok ht
  · exact h.writeReg r v
  · exact h.writeIbuf (by rwa [bytesOfWord_length])
  · exact h.writeObuf (by rwa [bytesOfWord_length])

theorem busAccess {s : State} (h : s.Inv) (x : Txn) : (busAccess x s).2.Inv := by
  unfold Machine.busAccess
  split
  · split
    · exact h.readTarget _ _
    · exact h
  · split
    · exact h.writeTarget ‹_› _
    · exact h

theorem hostTurn {s t : State} (h : s.Inv) {x : Txn} (ht : hostTurn x s = .next t) : t.Inv := by
  obtain ⟨-, rfl⟩ := hostTurn_next ht
  exact (h.busAccess x).respond _

theorem pollTurn {s t : State} (h : s.Inv) {a : Nat} {m v : Word} (ht : pollTurn a m v s = .next t) : t.Inv := by
  unfold Machine.pollTurn at ht
  split at ht
  · cases ht
    exact (h.hostTurn ‹_›).withPending _
  · cases ht
  · cases ht

/-- A round of the decoder's loop stays on the run it is on. -/
theorem tokenTurn {s t : State} (h : s.Inv) (ht : tokenTurn s = .next t) : t.Inv := by
  cases hr : s.tokenReady with
  | none =>
    rw [tokenTurn_none hr] at ht
    cases ht
    exact h
  | some p =>
    obtain ⟨c, f⟩ := p
    obtain ⟨hf, hc, ha⟩ := State.tokenReady_some hr
    have hfl := h.flight f hf
    rw [tokenTurn_eq hr] at ht
    cases ht
    refine { h with flight := ?_ }
    rintro _ ⟨⟩
    refine { hfl with onRun := fun c' hc' => ?_, fresh := fun hn => ?_ }
    · obtain rfl : c = c' := Option.some.inj (hc.symm.trans hc')
      exact (Decoder.run_tokenStep c f.x ha).trans (hfl.onRun c hc)
    · exact absurd (hc.symm.trans hn) nofun

theorem commitTurn {s t : State} (h : s.Inv) (ht : commitTurn s = .next t) : t.Inv := by
  cases hf : s.flight with
  | none =>
    rw [commitTurn_idle hf] at ht
    cases ht
    exact h
  | some f =>
    obtain ⟨r, hr, he⟩ := exec_decodeCommand_commits s.build.hasSelector (h.flight f hf).started s
    rw [commitTurn_busy hf, Flight.instr, he] at ht
    cases ht
    exact h.commit hr

theorem engineTurn {s t : State} (h : s.Inv) (ht : engineTurn s = .next t) : t.Inv := by
  unfold Machine.engineTurn at ht
  split at ht
  · exact h.tokenTurn ht
  · exact h.commitTurn ht

theorem eventTurn {s t : State} (h : s.Inv) {e : Event} (ht : eventTurn e s = .next t) : t.Inv := by
  cases e with
  | host x => exact h.hostTurn ht
  | poll a m v => exact h.pollTurn ht
  | token => exact h.tokenTurn ht
  | commit => exact h.commitTurn ht
  | reset =>
    cases ht
    exact h.resetStep

end State.Inv

/-- Settles O49: a step is the core's own move, or the turn of the next input once it is used up. -/
theorem everyStepKeepsTheInvariant : Obligations.EveryStepKeepsTheInvariant := by
  intro s t h ht
  unfold step at ht
  split at ht
  · exact h.engineTurn ht
  · exact (h.withPending _).eventTurn ht

end Sys2Proof.Machine
end

section
/-! SUPPORT. The memory family: the address map as an `↔`, a host transaction as a step, the little-endian data of the
buffers, and a core whose host never gets `ERROR`. -/

namespace Sys2Proof.Machine

/-! ## The address map (R63 to R66) -/

theorem resolve_ibuf {b : Build} {k n : Nat} (ha : bufferAligned (ibufBase + k) n) (hk : k + n ≤ b.ibufSize) :
    resolve b (ibufBase + k) n = .ok (.ibuf k) := by
  have hpos : 0 < n := by omega
  have hregs : ¬ ibufBase + k < regEnd := by simp only [ibufBase, regEnd]; omega
  rw [resolve, if_neg hregs, if_pos (by omega), if_pos ha, if_pos (by omega), Nat.add_sub_cancel_left]

/-- OBUF lies above the whole of IBUF only because a legal IBUF has at most 65536 bytes (R6). -/
theorem resolve_obuf {b : Build} {k n : Nat} (hb : b.Legal) (ha : bufferAligned (obufBase + k) n)
    (hk : k + n ≤ b.obufSize) : resolve b (obufBase + k) n = .ok (.obuf k) := by
  have hpos : 0 < n := by omega
  have hregs : ¬ obufBase + k < regEnd := by simp only [obufBase, regEnd]; omega
  have hibuf : ¬ (ibufBase ≤ obufBase + k ∧ obufBase + k < ibufBase + b.ibufSize) := by
    simp only [ibufBase, obufBase]; omega
  rw [resolve, if_neg hregs, if_neg hibuf, if_pos (by omega), if_pos ha, if_pos (by omega), Nat.add_sub_cancel_left]

theorem bufferAligned_iff (a n : Nat) : bufferAligned a n ↔ (n = 1 ∨ n = 2 ∨ n = 4) ∧ n ∣ a := by
  rw [Nat.dvd_iff_mod_eq_zero]

/-- An access that gets `OK` has at most the four bytes of a word. -/
theorem resolve_size_le {b : Build} {a n : Nat} {t : Target} (h : resolve b a n = .ok t) : n ≤ 4 := by
  obtain ⟨-, -, rfl, -⟩ | ⟨-, -, -, ⟨hn, -⟩, -⟩ | ⟨-, -, -, ⟨hn, -⟩, -⟩ := resolve_ok h <;> omega

/-- Settles O33: `resolve_ok` is one direction; the other is one lemma per region. -/
theorem addressMapDecides : Obligations.AddressMapDecides := by
  intro b a n target hb
  constructor
  · intro h
    obtain ⟨r, ht, hn, ha⟩ | ⟨k, ht, ha, hal, hk⟩ | ⟨k, ht, ha, hal, hk⟩ := resolve_ok h
    · exact .inl ⟨r, ht, hn, ha⟩
    · obtain ⟨hn, hdvd⟩ := (bufferAligned_iff a n).1 hal
      exact .inr (.inl ⟨k, ht, ha, hn, hdvd, hk⟩)
    · obtain ⟨hn, hdvd⟩ := (bufferAligned_iff a n).1 hal
      exact .inr (.inr ⟨k, ht, ha, hn, hdvd, hk⟩)
  · rintro (⟨r, rfl, rfl, rfl⟩ | ⟨k, rfl, rfl, hn, hdvd, hk⟩ | ⟨k, rfl, rfl, hn, hdvd, hk⟩)
    · exact resolve_reg b r
    · exact resolve_ibuf ((bufferAligned_iff _ _).2 ⟨hn, hdvd⟩) hk
    · exact resolve_obuf hb ((bufferAligned_iff _ _).2 ⟨hn, hdvd⟩) hk

/-! ## Little-endian data (R69) -/

/-- Byte `i` of a word made of at most four bytes. -/
theorem wordOfBytes_byte {bytes : List Byte} {i : Nat} (hl : bytes.length ≤ 4) (hi : i < bytes.length) :
    (wordOfBytes bytes).extractLsb' (8 * i) 8 = bytes.getD i 0 := by
  ext j hj
  rw [← BitVec.getLsbD_eq_getElem, ← BitVec.getLsbD_eq_getElem, BitVec.getLsbD_extractLsb', decide_eq_true hj,
    Bool.true_and, wordOfBytes_getLsbD bytes i j hj hl hi]

theorem wordOfBytes_shiftRight (bytes : List Byte) : wordOfBytes bytes >>> (8 * bytes.length) = 0 := by
  ext j hj
  rw [← BitVec.getLsbD_eq_getElem, BitVec.getLsbD_ushiftRight,
    wordOfBytes_getLsbD_of_le bytes _ (Nat.le_add_right _ _)]
  simp

/-- The data of a buffer read: the bytes at rising indices, the first in bits [7:0], zero-extended. -/
theorem Memory.readAll_littleEndian (m : Memory) (k : Nat) {n : Nat} (hn : n ≤ 4) :
    (∀ i, i < n → (wordOfBytes (m.readAll k n)).extractLsb' (8 * i) 8 = m.read (k + i)) ∧
      wordOfBytes (m.readAll k n) >>> (8 * n) = 0 := by
  constructor
  · intro i hi
    rw [wordOfBytes_byte (by simpa using hn) (by simpa using hi), List.getD_eq_getElem?_getD,
      Memory.readAll_getElem?, if_pos hi, Option.getD_some]
  · simpa using wordOfBytes_shiftRight (m.readAll k n)

/-- What a buffer reads as after a write: byte `i` of the value at index `k + i`, and every other byte as before. -/
theorem Memory.writeAll_littleEndian (m : Memory) (k n : Nat) (v : Word) :
    (∀ i, i < n → (m.writeAll k (bytesOfWord n v)).read (k + i) = v.extractLsb' (8 * i) 8) ∧
      ∀ j, j < k ∨ k + n ≤ j → (m.writeAll k (bytesOfWord n v)).read j = m.read j := by
  constructor
  · intro i hi
    rw [Memory.read_writeAll, if_pos (Nat.le_add_right k i), Nat.add_sub_cancel_left, bytesOfWord_getElem? n v i hi,
      Option.getD_some]
  · rintro j (hbelow | habove)
    · rw [Memory.read_writeAll, if_neg (by omega)]
    · rw [Memory.read_writeAll, if_pos (by omega), List.getElem?_eq_none (by rw [bytesOfWord_length]; omega),
        Option.getD_none]

/-! ## The buffers while idle and while busy (R72, R73) -/

theorem State.readTarget_obuf_idle {s : State} (h : s.flight = none) (k n : Nat) :
    s.readTarget (.obuf k) n = (.data (wordOfBytes (s.obuf.readAll k n)), s) := by
  simp [State.readTarget, State.obufBytes, State.afterObufRead, State.busy_eq_false.2 h]

theorem State.afterObufRead_inFlight {s : State} {f : Flight} (h : s.flight = some f) :
    s.afterObufRead = { s with draws := s.draws + 1 } := by
  simp [State.afterObufRead, State.busy, h]

theorem State.writeIbuf_idle {s : State} (h : s.flight = none) (k : Nat) (bytes : List Byte) :
    s.writeIbuf k bytes = { s with ibuf := s.ibuf.writeAll k bytes } := by
  simp [State.writeIbuf, State.busy_eq_false.2 h]

theorem State.writeObuf_idle {s : State} (h : s.flight = none) (k : Nat) (bytes : List Byte) :
    s.writeObuf k bytes = { s with obuf := s.obuf.writeAll k bytes } := by
  simp [State.writeObuf, State.busy_eq_false.2 h]

/-- Settles O36: the read is `readTarget`, and its data are the stored bytes, little-endian. -/
theorem bufferReadIsLittleEndian : Obligations.BufferReadIsLittleEndian := by
  intro s a n k es he
  constructor
  · intro h
    refine ⟨_, ?_, s.ibuf.readAll_littleEndian k (resolve_size_le h)⟩
    rw [step_read he h]
    rfl
  · intro h hidle
    refine ⟨_, ?_, s.obuf.readAll_littleEndian k (resolve_size_le h)⟩
    rw [step_read he h, State.readTarget_obuf_idle (by exact hidle)]
    rfl

/-- Settles O37: the write is `writeTarget`, and the buffer it leaves reads as `Memory.writeAll_littleEndian` says. -/
theorem bufferWriteIsLittleEndian : Obligations.BufferWriteIsLittleEndian := by
  intro s a n k v es hidle he
  constructor
  · intro h
    refine ⟨_, ?_, s.ibuf.writeAll_littleEndian k n v⟩
    rw [step_write he h (by simp), State.writeTarget, State.writeIbuf_idle (by exact hidle)]
    rfl
  · intro h
    refine ⟨_, ?_, s.obuf.writeAll_littleEndian k n v⟩
    rw [step_write he h (by simp), State.writeTarget, State.writeObuf_idle (by exact hidle)]
    rfl

/-- Settles O38: the only effect of the read is the draw of its data. -/
theorem obufReadWhileBusyOnlyDraws : Obligations.ObufReadWhileBusyOnlyDraws := by
  intro s f a n k es hf he h
  refine ⟨wordOfBytes (s.obufBytes k n), ?_⟩
  rw [step_read he h, State.readTarget, State.afterObufRead_inFlight (by exact hf)]
  rfl

/-! ## Register reads (R24 to R42) -/

theorem step_readReg {s : State} {r : Reg} {es : List Event} (he : s.pending = .host (.read r.offset 4) :: es) :
    step s = .next { s with pending := es, response := some (.data (s.readReg r)) } := by
  rw [step_read he (resolve_reg s.build r)]
  cases r <;> rfl

theorem State.readReg_cap (s : State) :
    (s.readReg .cap).getLsbD 0 = s.build.hasSelector ∧ (s.readReg .cap).getLsbD 1 = s.build.wmOverlap ∧
      (s.readReg .cap).extractLsb' 2 30 = 0 := by
  simp only [State.readReg, BitVec.getLsbD_append]
  refine ⟨by simp, by simp, ?_⟩
  simp (disch := decide) only [BitVec.extractLsb'_append_eq_of_le, Nat.reduceSub]
  rfl

/-- Settles O35: the read as a step, then each register's value. -/
theorem registerReadHasNoSideEffect : Obligations.RegisterReadHasNoSideEffect := by
  refine ⟨fun s r es he => step_readReg he, fun s => ?_⟩
  obtain ⟨selector, overlap, capReserved⟩ := s.readReg_cap
  refine ⟨rfl, selector, overlap, capReserved, rfl, rfl, s.config.word_window, s.config.word_minMatch,
    s.config.word_ffesc, s.config.word_ie, s.config.word_reserved, rfl, rfl, rfl, ?_, ?_⟩
  · intro h
    rw [State.readReg, h]
    rfl
  · intro h
    rw [State.readReg, h]
    rfl

/-! ## The response `ERROR` (R67) -/

theorem busAccess_read_error {s : State} {a n : Nat} {why : BusError} (h : resolve s.build a n = .error why) :
    busAccess (.read a n) s = (.error why, s) := by
  simp only [busAccess, h]

theorem busAccess_write_error {s : State} {a n : Nat} {why : BusError} (h : resolve s.build a n = .error why)
    (v : Word) : busAccess (.write a n v) s = (.error why, s) := by
  simp only [busAccess, h]

theorem step_host {s : State} {x : Txn} {es : List Event} (he : s.pending = .host x :: es) :
    step s = hostTurn x { s with pending := es } := by
  simp only [step, he, eventTurn]

theorem hostTurn_error {s t : State} {x : Txn} {why : BusError} (h : busAccess x s = (.error why, t)) :
    hostTurn x s = .fault (.busError why) := by
  simp only [hostTurn, h, busOutcome]

/-- Settles O34: the bus access returns the state, and the host's turn ends in the fault. -/
theorem busErrorChangesNothing : Obligations.BusErrorChangesNothing := by
  intro s a n v why es h
  refine ⟨busAccess_read_error h, busAccess_write_error h v, rfl, fun he => ?_, fun he => ?_⟩
  · rw [step_host he]
    exact hostTurn_error (busAccess_read_error (by exact h))
  · rw [step_host he]
    exact hostTurn_error (busAccess_write_error (by exact h) v)

/-! ## Sound host programs (R67) -/

/-- A turn that answers with a next state and touches neither the build nor what is pending. -/
def AnswersInPlace (s : State) (o : Host.Outcome State Fault Refusal) : Prop :=
  ∃ t, o = .next t ∧ t.build = s.build ∧ t.pending = s.pending

/-- What makes a host program sound is the build and what is pending. -/
theorem AnswersInPlace.sound {s : State} {o : Host.Outcome State Fault Refusal} (h : AnswersInPlace s o)
    (hs : s.hostSound = true) : ∃ t, o = .next t ∧ t.hostSound = true := by
  obtain ⟨t, ho, hbuild, hpending⟩ := h
  refine ⟨t, ho, ?_⟩
  rwa [State.hostSound, hbuild, hpending]

theorem tokenTurn_answersInPlace (s : State) : AnswersInPlace s (tokenTurn s) :=
  ⟨_, tokenTurn_eq_decoderTurn s, rfl, rfl⟩

theorem commitTurn_answersInPlace (s : State) : AnswersInPlace s (commitTurn s) := by
  cases hf : s.flight with
  | none => exact ⟨s, commitTurn_idle hf, rfl, rfl⟩
  | some f =>
    obtain ⟨t, ht⟩ := exec_next (f.instr s.build) s
    exact ⟨t, (commitTurn_busy hf).trans ht, exec_frame ht⟩

theorem engineTurn_answersInPlace (s : State) : AnswersInPlace s (engineTurn s) := by
  unfold engineTurn
  split
  · exact tokenTurn_answersInPlace s
  · exact commitTurn_answersInPlace s

theorem resolve_toBool {b : Build} {a n : Nat} (h : (resolve b a n).toBool = true) : ∃ t, resolve b a n = .ok t := by
  cases hr : resolve b a n with
  | ok t => exact ⟨t, rfl⟩
  | error why =>
    rw [hr] at h
    cases h

/-- A sound transaction does not get `ERROR`. -/
theorem busAccess_sound {s : State} {x : Txn} (h : (Event.host x).sound s.build = true) (why : BusError) :
    (busAccess x s).1 ≠ .error why := by
  cases x with
  | read a n =>
    obtain ⟨t, ht⟩ := resolve_toBool h
    simp only [busAccess, ht]
    cases t <;> exact nofun
  | write a n v =>
    obtain ⟨t, ht⟩ := resolve_toBool h
    simp only [busAccess, ht]
    exact nofun

/-- A host transaction stops the model only with an `ERROR`: a written no-operation has a next state too. -/
theorem hostTurn_total {s : State} {x : Txn} (h : ∀ why, (busAccess x s).1 ≠ .error why) :
    ∃ t, hostTurn x s = .next t := by
  have hbus : ∃ u, busOutcome (busAccess x s).1 (busAccess x s).2 = .next u := by
    cases hr : (busAccess x s).1 with
    | ok => exact ⟨_, rfl⟩
    | data d => exact ⟨_, rfl⟩
    | error why => exact absurd hr (h why)
  obtain ⟨u, hu⟩ := hbus
  cases hx : x.writtenNop s.build with
  | none => exact ⟨u, by simp only [hostTurn, hu, hx]⟩
  | some i =>
    obtain ⟨t, ht⟩ := exec_next i u
    exact ⟨t, by simp only [hostTurn, hu, hx, ht]⟩

theorem hostTurn_answersInPlace {s : State} {x : Txn} (h : (Event.host x).sound s.build = true) :
    AnswersInPlace s (hostTurn x s) := by
  obtain ⟨t, ht⟩ := hostTurn_total (busAccess_sound h)
  obtain ⟨-, rfl⟩ := hostTurn_next ht
  exact ⟨_, ht, busAccess_frame x s⟩

/-- A poll reads once, and either it is used up or it stays pending after a commit. -/
theorem pollTurn_sound {s : State} {a : Nat} {m v : Word} (h : (Event.poll a m v).sound s.build = true)
    (hs : s.hostSound = true) : ∃ t, pollTurn a m v s = .next t ∧ t.hostSound = true := by
  obtain ⟨t, ht, hbuild, hpending⟩ := hostTurn_answersInPlace (x := .read a 4) h
  simp only [pollTurn, ht]
  refine ⟨_, rfl, ?_⟩
  rw [State.hostSound] at hs
  rw [State.hostSound, hbuild]
  split
  · rwa [hpending]
  · rw [hpending, List.all_cons, List.all_cons, h, hs]
    rfl

theorem eventTurn_sound {s : State} {e : Event} (he : e.sound s.build = true) (hs : s.hostSound = true) :
    ∃ t, eventTurn e s = .next t ∧ t.hostSound = true := by
  cases e with
  | host x => exact (hostTurn_answersInPlace he).sound hs
  | poll a m v => exact pollTurn_sound he hs
  | token => exact (tokenTurn_answersInPlace s).sound hs
  | commit => exact (commitTurn_answersInPlace s).sound hs
  | reset => exact ⟨s.resetStep, rfl, hs⟩

/-- Settles O50: the core's own move, or the turn of the next input, which is sound as the rest of the list is. -/
theorem soundHostNeverFaults : Obligations.SoundHostNeverFaults := by
  intro s hs
  cases hp : s.pending with
  | nil =>
    simp only [step, hp]
    exact (engineTurn_answersInPlace s).sound hs
  | cons e es =>
    rw [State.hostSound, hp, List.all_cons, Bool.and_eq_true] at hs
    obtain ⟨he, hes⟩ := hs
    simp only [step, hp]
    exact eventTurn_sound (s := { s with pending := es }) he hes

end Sys2Proof.Machine
end

section
/-! SUPPORT. The encoding family: encode and decode are each other's inverse, on command words and on tokens; the masks
of the command map; and the streams that end inside a token. -/

namespace Sys2Proof

/-! ## The fields of a command word -/

/-- A word with START = 0 is its bits [31:1] over a 0 (R121). -/
theorem cmdStart_eq_zero_iff_append (w : Word) : cmdStart w = 0 ↔ ∃ rest : BitVec 31, w = rest ++ 0#1 := by
  constructor
  · intro h
    refine ⟨w.extractLsb' 1 31, ?_⟩
    have hsplit : w.extractLsb' 1 31 ++ cmdStart w = w :=
      .trans (BitVec.extractLsb'_append_extractLsb'_eq_extractLsb' (start₁ := 0) (len₁ := 1) (len₂ := 31) rfl)
        BitVec.extractLsb'_eq_self
    rw [h] at hsplit
    exact hsplit.symm
  · rintro ⟨rest, rfl⟩
    exact BitVec.extractLsb'_append_eq_right

theorem cmdStart_eq_one {w : Word} (h : cmdStart w ≠ 0) : cmdStart w = 1 :=
  (BitVec.eq_zero_or_eq_one _).resolve_left h

/-- The two values of OP that name a codec (R103). -/
theorem Direction.exists_op_eq {o : BitVec 2} (h2 : o ≠ 2) (h3 : o ≠ 3) : ∃ op : Direction, op.op = o := by
  have h : o = 0 ∨ o = 1 := by revert o; decide
  obtain rfl | rfl := h
  · exact ⟨.enc, rfl⟩
  · exact ⟨.dec, rfl⟩

theorem Direction.op_ne_two (op : Direction) : op.op ≠ 2#2 := by cases op <;> decide

theorem Direction.op_ne_three (op : Direction) : op.op ≠ 3#2 := by cases op <;> decide

/-- Reading the direction back from OP. -/
theorem Direction.ofOp_op (op : Direction) : (if op.op = 0#2 then Direction.enc else .dec) = op := by cases op <;> rfl

/-- The values of ALG below 2 are the two codecs (R104). -/
theorem Codec.exists_alg_eq {a : BitVec 2} (h : ¬ 2 ≤ a.toNat) : ∃ c : Codec, c.alg = a := by
  have h : a = 0 ∨ a = 1 := by revert a; decide
  obtain rfl | rfl := h
  · exact ⟨.rle, rfl⟩
  · exact ⟨.wm, rfl⟩

/-! ## Command words: decode of encode -/

theorem decodeCommand_append_zero (hasSelector : Bool) (rest : BitVec 31) :
    decodeCommand hasSelector (rest ++ 0#1) = .cmdNop rest := by
  rw [decodeCommand_nop ((cmdStart_eq_zero_iff_append _).2 ⟨rest, rfl⟩)]
  exact congrArg Instr.cmdNop BitVec.extractLsb'_append_eq_left

theorem decodeCommand_illegal {hasSelector : Bool} {w : Word} (hstart : cmdStart w = 1)
    (hill : illegalWord hasSelector w) : decodeCommand hasSelector w = .cmdIllegal w := by
  rw [decodeCommand, if_neg (by simp [hstart]), if_pos hill]

theorem decodeCommand_sel (alg : BitVec 2) : decodeCommand true (commandWord 0 alg 0 2 1) = .sel alg := by
  rw [decodeCommand_commandWord]
  simp

theorem decodeCommand_unsupportedAlg (hasSelector : Bool) (op : Direction) {alg : BitVec 2} (h : 2 ≤ alg.toNat) :
    decodeCommand hasSelector (commandWord 0 alg 0 op.op 1) = .cmdUnsupportedAlg op alg := by
  rw [decodeCommand_commandWord]
  simp [op.op_ne_two, op.op_ne_three, h, op.ofOp_op]

/-- The codec command of a direction and a codec (R103, R104). -/
def codecCommand : Direction → Codec → Instr
  | .enc, .rle => .rleEnc
  | .enc, .wm => .wmEnc
  | .dec, .rle => .rleDec
  | .dec, .wm => .wmDec

theorem encode_codecCommand (op : Direction) (c : Codec) :
    encode (codecCommand op c) = .command (commandWord 0 c.alg 0 op.op 1) := by
  cases op <;> cases c <;> rfl

theorem wf_codecCommand (hasSelector : Bool) (op : Direction) (c : Codec) :
    (codecCommand op c).wf hasSelector = true := by
  cases op <;> cases c <;> rfl

theorem decodeCommand_codec (hasSelector : Bool) (op : Direction) (c : Codec) :
    decodeCommand hasSelector (commandWord 0 c.alg 0 op.op 1) = codecCommand op c := by
  rw [decodeCommand_commandWord]
  cases op <;> cases c <;> simp [Direction.op, Codec.alg, codecCommand]

/-- The command word of a well-formed instruction decodes to it. -/
theorem decodeCommand_of_encode {hasSelector : Bool} {i : Instr} {w : Word} (hwf : i.wf hasSelector = true)
    (henc : encode i = .command w) : decodeCommand hasSelector w = i := by
  cases i with
  | rleEnc => cases henc; exact decodeCommand_codec hasSelector .enc .rle
  | rleDec => cases henc; exact decodeCommand_codec hasSelector .dec .rle
  | wmEnc => cases henc; exact decodeCommand_codec hasSelector .enc .wm
  | wmDec => cases henc; exact decodeCommand_codec hasSelector .dec .wm
  | sel alg =>
    cases henc
    obtain rfl : hasSelector = true := hwf
    exact decodeCommand_sel alg
  | cmdNop rest => cases henc; exact decodeCommand_append_zero hasSelector rest
  | cmdUnsupportedAlg op alg => cases henc; exact decodeCommand_unsupportedAlg hasSelector op (of_decide_eq_true hwf)
  | cmdIllegal w =>
    cases henc
    simp only [Instr.wf, Bool.and_eq_true, decide_eq_true_eq] at hwf
    obtain ⟨hstart, hill⟩ := hwf
    exact decodeCommand_illegal hstart hill
  | _ => cases henc

/-! ## Tokens: decode of encode -/

/-- The bad markers are the bytes that are neither marker of R97. -/
theorem badMarker_iff (m : Byte) : 2 ≤ m.toNat ↔ m ≠ 0x00 ∧ m ≠ 0x01 := by bv_omega

/-- The bytes of a well-formed token decode to it, whatever follows them (R98). -/
theorem decodeToken_of_encode {hasSelector : Bool} {i : Instr} {c : Codec} {bytes : List Byte}
    (hwf : i.wf hasSelector = true) (henc : encode i = .stream c bytes) (rest : List Byte) :
    decodeToken c (bytes ++ rest) = .ok (i, rest) := by
  cases i with
  | rleLit v => cases henc; exact decodeRle_lit (of_decide_eq_true hwf) rest
  | rleRun v c => cases henc; exact decodeRle_run v c rest
  | wmLit v => cases henc; exact decodeWm_lit v rest
  | wmMatch o l => cases henc; exact decodeWm_match o l rest
  | wmBadMarker m =>
    cases henc
    obtain ⟨h0, h1⟩ := (badMarker_iff m).1 (of_decide_eq_true hwf)
    exact decodeWm_badMarker h0 h1 rest
  | _ => cases henc

/-- Settles O3: a well-formed instruction is encoded as a command word or as the bytes of a token, and each is read
back. -/
theorem decodeOfEncodeIsTheInstruction : Obligations.DecodeOfEncodeIsTheInstruction := by
  intro hasSelector i hwf rest
  cases henc : encode i with
  | command w => exact decodeCommand_of_encode hwf henc
  | stream c bytes => exact decodeToken_of_encode hwf henc rest

/-! ## Command words: encode of decode -/

/-- A started word that is not illegal has nothing in its reserved bits, so OP and ALG are all of it (R102, R124). -/
theorem eq_commandWord_of_legal {hasSelector : Bool} {w : Word} (hstart : cmdStart w = 1)
    (hleg : ¬ illegalWord hasSelector w) : w = commandWord 0 (cmdAlg w) 0 (cmdOp w) 1 := by
  simp only [illegalWord, not_or, not_not] at hleg
  obtain ⟨hreserved, hbit3, -, -⟩ := hleg
  conv_lhs => rw [← commandWord_fields w, hreserved, hbit3, hstart]
  rfl

/-- The command map leaves no word out: every word is the encoding of a well-formed instruction. -/
theorem exists_encode_eq_command (hasSelector : Bool) (w : Word) :
    ∃ i : Instr, i.wf hasSelector = true ∧ encode i = .command w := by
  by_cases hstart : cmdStart w = 0
  · obtain ⟨rest, rfl⟩ := (cmdStart_eq_zero_iff_append w).1 hstart
    exact ⟨.cmdNop rest, rfl, rfl⟩
  replace hstart := cmdStart_eq_one hstart
  by_cases hill : illegalWord hasSelector w
  · exact ⟨.cmdIllegal w, Bool.and_eq_true_iff.2 ⟨decide_eq_true hstart, decide_eq_true hill⟩, rfl⟩
  have hw := eq_commandWord_of_legal hstart hill
  simp only [illegalWord, not_or, not_and] at hill
  obtain ⟨-, -, hop3, hsel⟩ := hill
  by_cases hop2 : cmdOp w = 2
  · rw [hop2] at hw
    exact ⟨.sel (cmdAlg w), Bool.eq_true_of_not_eq_false (hsel hop2), congrArg Code.command hw.symm⟩
  obtain ⟨op, hop⟩ := Direction.exists_op_eq hop2 hop3
  by_cases halg : 2 ≤ (cmdAlg w).toNat
  · rw [← hop] at hw
    exact ⟨.cmdUnsupportedAlg op (cmdAlg w), decide_eq_true halg, congrArg Code.command hw.symm⟩
  · obtain ⟨c, hc⟩ := Codec.exists_alg_eq halg
    rw [hw, ← hop, ← hc]
    exact ⟨codecCommand op c, wf_codecCommand hasSelector op c, encode_codecCommand op c⟩

/-- Settles O4: the word is the encoding of some well-formed instruction, and that is the one it decodes to. -/
theorem encodeOfDecodedCommandIsTheWord : Obligations.EncodeOfDecodedCommandIsTheWord := by
  intro hasSelector w
  obtain ⟨i, hwf, henc⟩ := exists_encode_eq_command hasSelector w
  rw [decodeCommand_of_encode hwf henc]
  exact ⟨henc, hwf⟩

/-! ## The masks of the command map (R106) -/

theorem commandWord_inj {r r' : BitVec 26} {a a' : BitVec 2} {b b' : BitVec 1} {o o' : BitVec 2} {s s' : BitVec 1} :
    commandWord r a b o s = commandWord r' a' b' o' s' ↔ r = r' ∧ a = a' ∧ b = b' ∧ o = o' ∧ s = s' := by
  constructor
  · intro h
    refine ⟨?_, ?_, ?_, ?_, ?_⟩
    · rw [← commandWord_reserved r a b o s, h, commandWord_reserved]
    · rw [← commandWord_alg r a b o s, h, commandWord_alg]
    · rw [← commandWord_bit3 r a b o s, h, commandWord_bit3]
    · rw [← commandWord_op r a b o s, h, commandWord_op]
    · rw [← commandWord_start r a b o s, h, commandWord_start]
  · rintro ⟨rfl, rfl, rfl, rfl, rfl⟩
    rfl

theorem commandWord_and (r r' : BitVec 26) (a a' : BitVec 2) (b b' : BitVec 1) (o o' : BitVec 2) (s s' : BitVec 1) :
    commandWord r a b o s &&& commandWord r' a' b' o' s' =
      commandWord (r &&& r') (a &&& a') (b &&& b') (o &&& o') (s &&& s') := by
  rw [← commandWord_fields (commandWord r a b o s &&& commandWord r' a' b' o' s')]
  have hstart (v w : Word) : cmdStart (v &&& w) = cmdStart v &&& cmdStart w := BitVec.extractLsb'_and
  simp only [hstart, BitVec.extractLsb'_and, commandWord_start, commandWord_op, commandWord_bit3, commandWord_alg,
    commandWord_reserved]

/-- A test by match and mask is one test for each field. -/
theorem commandWord_and_eq_iff {r mr r' : BitVec 26} {a ma a' : BitVec 2} {b mb b' : BitVec 1} {o mo o' : BitVec 2}
    {s ms s' : BitVec 1} :
    commandWord r a b o s &&& commandWord mr ma mb mo ms = commandWord r' a' b' o' s' ↔
      r &&& mr = r' ∧ a &&& ma = a' ∧ b &&& mb = b' ∧ o &&& mo = o' ∧ s &&& ms = s' := by
  rw [← commandWord_inj, ← commandWord_and]

/-- Every word is built from fields. -/
theorem exists_eq_commandWord (w : Word) : ∃ r a b o s, w = commandWord r a b o s :=
  ⟨_, _, _, _, _, (commandWord_fields w).symm⟩

theorem selMask_iff (w : Word) : w &&& 0xFFFFFFCF#32 = 0x00000005 ↔ ∃ alg, w = commandWord 0 alg 0 2 1 := by
  obtain ⟨r, a, b, o, s, rfl⟩ := exists_eq_commandWord w
  rw [show 0xFFFFFFCF#32 = commandWord (.allOnes 26) 0 (.allOnes 1) (.allOnes 2) (.allOnes 1) from rfl,
    show (0x00000005 : Word) = commandWord 0 0 0 2 1 from rfl, commandWord_and_eq_iff]
  simp only [BitVec.and_allOnes, commandWord_inj]
  simp

/-- ALG has its high bit set and OP has it clear. -/
theorem unsupportedAlgMask_iff (w : Word) :
    w &&& 0xFFFFFFED#32 = 0x00000021 ↔
      ∃ (op : Direction) (alg : BitVec 2), 2 ≤ alg.toNat ∧ w = commandWord 0 alg 0 op.op 1 := by
  obtain ⟨r, a, b, o, s, rfl⟩ := exists_eq_commandWord w
  rw [show 0xFFFFFFED#32 = commandWord (.allOnes 26) 2 (.allOnes 1) 2 (.allOnes 1) from rfl,
    show (0x00000021 : Word) = commandWord 0 2 0 0 1 from rfl, commandWord_and_eq_iff]
  have halg : a &&& 2 = 2 ↔ 2 ≤ a.toNat := by revert a; decide
  have hop : o &&& 2 = 0 ↔ ∃ op : Direction, o = op.op := by
    constructor
    · intro h
      obtain ⟨op, rfl⟩ := Direction.exists_op_eq (o := o) (by rintro rfl; simp at h) (by rintro rfl; simp at h)
      exact ⟨op, rfl⟩
    · rintro ⟨op, rfl⟩
      cases op <;> rfl
  rw [halg, hop]
  simp only [BitVec.and_allOnes, commandWord_inj]
  constructor
  · rintro ⟨rfl, ha, rfl, ⟨op, rfl⟩, rfl⟩
    exact ⟨op, a, ha, rfl, rfl, rfl, rfl, rfl⟩
  · rintro ⟨op, _, ha, rfl, rfl, rfl, rfl, rfl⟩
    exact ⟨rfl, ha, rfl, ⟨op, rfl⟩, rfl⟩

theorem startMask_iff (w : Word) : w &&& 0x00000001#32 = 0 ↔ ∃ rest : BitVec 31, w = rest ++ 0#1 := by
  rw [← cmdStart_eq_zero_iff_append]
  obtain ⟨r, a, b, o, s, rfl⟩ := exists_eq_commandWord w
  rw [show 0x00000001#32 = commandWord 0 0 0 0 (.allOnes 1) from rfl, show (0 : Word) = commandWord 0 0 0 0 0 from rfl,
    commandWord_and_eq_iff, commandWord_start]
  simp only [BitVec.and_allOnes]
  simp

/-- Settles O2: each mask says that the word is its row's encoding (O3 reads it back), and a word that is no other row's
encoding is an illegal one. -/
theorem commandMapByMatchAndMask : Obligations.CommandMapByMatchAndMask := by
  intro hasSelector w
  refine ⟨?_, ?_, ?_, ?_, ?_, ?_, ?_, ?_⟩
  · rintro rfl
    exact decodeCommand_codec hasSelector .enc .rle
  · rintro rfl
    exact decodeCommand_codec hasSelector .dec .rle
  · rintro rfl
    exact decodeCommand_codec hasSelector .enc .wm
  · rintro rfl
    exact decodeCommand_codec hasSelector .dec .wm
  · rintro rfl hmask
    obtain ⟨alg, rfl⟩ := (selMask_iff w).1 hmask
    rw [decodeCommand_sel, cmdAlg, commandWord_alg]
  · intro hmask
    obtain ⟨rest, rfl⟩ := (startMask_iff w).1 hmask
    exact ⟨rest, decodeCommand_append_zero hasSelector rest, rfl⟩
  · intro hmask
    obtain ⟨op, alg, halg, rfl⟩ := (unsupportedAlgMask_iff w).1 hmask
    refine ⟨op, ?_, (commandWord_op _ _ _ _ _).symm⟩
    rw [decodeCommand_unsupportedAlg hasSelector op halg, cmdAlg, commandWord_alg]
  · intro hrleEnc hrleDec hwmEnc hwmDec hsel hnop hunsupported
    obtain ⟨i, hwf, henc⟩ := exists_encode_eq_command hasSelector w
    rw [decodeCommand_of_encode hwf henc]
    cases i with
    | cmdIllegal v => cases henc; rfl
    | rleEnc => cases henc; exact absurd rfl hrleEnc
    | rleDec => cases henc; exact absurd rfl hrleDec
    | wmEnc => cases henc; exact absurd rfl hwmEnc
    | wmDec => cases henc; exact absurd rfl hwmDec
    | sel alg =>
      cases henc
      obtain rfl : hasSelector = true := hwf
      exact absurd ((selMask_iff _).2 ⟨alg, rfl⟩) (hsel.resolve_left nofun)
    | cmdNop rest => cases henc; exact absurd ((startMask_iff _).2 ⟨rest, rfl⟩) hnop
    | cmdUnsupportedAlg op alg =>
      cases henc
      exact absurd ((unsupportedAlgMask_iff _).2 ⟨op, alg, of_decide_eq_true hwf, rfl⟩) hunsupported
    | _ => cases henc

/-! ## Streams: a token, or a token cut off -/

/-- A stream that ends inside its next token: in RLE inside a run, in Window-Match inside a literal or a match (R96,
R97). -/
def Truncated : Codec → List Byte → Prop
  | _, [] => False
  | .rle, b :: t => b = 0xFF ∧ t.length < 2
  | .wm, b :: t => (b = 0x00 ∧ t.length < 1) ∨ (b = 0x01 ∧ t.length < 2)

theorem decodeToken_nil (c : Codec) : decodeToken c [] = .error .endOfStream := by cases c <;> rfl

theorem decodeRle_truncated {t : List Byte} (ht : t.length < 2) : decodeRle (0xFF :: t) = .error .truncatedRun :=
  match t, ht with
  | [], _ => rfl
  | [_], _ => rfl

theorem decodeWm_truncatedMatch {t : List Byte} (ht : t.length < 2) : decodeWm (0x01 :: t) = .error .truncatedMatch :=
  match t, ht with
  | [], _ => rfl
  | [_], _ => rfl

theorem decodeToken_truncated {c : Codec} {x : List Byte} (h : Truncated c x) : ∃ e, decodeToken c x = .error e := by
  match c, x, h with
  | .rle, b :: t, ⟨hb, ht⟩ =>
    subst hb
    exact ⟨_, decodeRle_truncated ht⟩
  | .wm, b :: t, .inl ⟨hb, ht⟩ =>
    subst hb
    obtain rfl := List.length_eq_zero_iff.1 (Nat.lt_one_iff.1 ht)
    exact ⟨.truncatedLiteral, rfl⟩
  | .wm, b :: t, .inr ⟨hb, ht⟩ =>
    subst hb
    exact ⟨_, decodeWm_truncatedMatch ht⟩

/-- What stands after a three-byte token's marker: too few bytes, or two bytes and the rest. -/
theorem length_lt_two_or_eq_cons_cons (t : List Byte) : t.length < 2 ∨ ∃ v v' rest, t = v :: v' :: rest :=
  match t with
  | [] => .inl (by decide)
  | [_] => .inl (by simp)
  | v :: v' :: rest => .inr ⟨v, v', rest, rfl⟩

/-- The first byte tells the token (R96, R97): a stream with bytes left is cut off inside its next token or begins with
the encoding of a well-formed one. -/
theorem truncated_or_exists_encode (c : Codec) (b : Byte) (t : List Byte) :
    Truncated c (b :: t) ∨
      ∃ i bytes rest, i.wf true = true ∧ encode i = .stream c bytes ∧ b :: t = bytes ++ rest := by
  cases c with
  | rle =>
    by_cases hrun : b = 0xFF
    · subst hrun
      obtain ht | ⟨v, n, rest, rfl⟩ := length_lt_two_or_eq_cons_cons t
      · exact .inl ⟨rfl, ht⟩
      · exact .inr ⟨.rleRun v n, _, rest, rfl, rfl, rfl⟩
    · exact .inr ⟨.rleLit b, _, t, decide_eq_true hrun, rfl, rfl⟩
  | wm =>
    by_cases hlit : b = 0x00
    · subst hlit
      cases t with
      | nil => exact .inl (.inl ⟨rfl, Nat.one_pos⟩)
      | cons v rest => exact .inr ⟨.wmLit v, _, rest, rfl, rfl, rfl⟩
    by_cases hmatch : b = 0x01
    · subst hmatch
      obtain ht | ⟨o, l, rest, rfl⟩ := length_lt_two_or_eq_cons_cons t
      · exact .inl (.inr ⟨rfl, ht⟩)
      · exact .inr ⟨.wmMatch o l, _, rest, rfl, rfl, rfl⟩
    · exact .inr ⟨.wmBadMarker b, _, t, decide_eq_true ((badMarker_iff b).2 ⟨hlit, hmatch⟩), rfl, rfl⟩

/-- What a token is read from: its own encoding, at the head of the stream. -/
theorem decodeToken_ok {c : Codec} {x rest : List Byte} {i : Instr} (h : decodeToken c x = .ok (i, rest)) :
    ∃ bytes, i.wf true = true ∧ encode i = .stream c bytes ∧ x = bytes ++ rest := by
  cases x with
  | nil => rw [decodeToken_nil] at h; cases h
  | cons b t =>
    obtain htrunc | ⟨i', bytes, rest', hwf, henc, hx⟩ := truncated_or_exists_encode c b t
    · obtain ⟨e, he⟩ := decodeToken_truncated htrunc
      rw [he] at h
      cases h
    · rw [hx, decodeToken_of_encode hwf henc] at h
      cases h
      exact ⟨bytes, hwf, henc, hx⟩

/-- R99: with bytes left, a token is refused exactly when the stream ends inside it. -/
theorem decodeToken_error_iff (c : Codec) (b : Byte) (t : List Byte) :
    (∃ e, decodeToken c (b :: t) = .error e) ↔ Truncated c (b :: t) := by
  refine ⟨?_, decodeToken_truncated⟩
  rintro ⟨e, he⟩
  refine (truncated_or_exists_encode c b t).resolve_right ?_
  rintro ⟨i, bytes, rest, hwf, henc, hx⟩
  rw [hx, decodeToken_of_encode hwf henc] at he
  cases he

/-- R101: an RLE token is 1 or 3 bytes. -/
theorem encode_rle_length {i : Instr} {bytes : List Byte} (h : encode i = .stream .rle bytes) :
    bytes.length = 1 ∨ bytes.length = 3 := by
  cases i <;> cases h
  case rleLit v => exact .inl rfl
  case rleRun v c => exact .inr rfl

/-- R101: a Window-Match token is 2 or 3 bytes; a bad marker stands alone. -/
theorem encode_wm_length {i : Instr} {bytes : List Byte} (h : encode i = .stream .wm bytes) :
    bytes.length = 2 ∨ bytes.length = 3 ∨ ∃ m, i = .wmBadMarker m ∧ bytes = [m] := by
  cases i <;> cases h
  case wmLit v => exact .inl rfl
  case wmMatch o l => exact .inr (.inl rfl)
  case wmBadMarker m => exact .inr (.inr ⟨m, rfl, rfl⟩)

/-- Settles O5, by the token's own encoding and its length in each codec. -/
theorem tokenIsReadFromItsOwnBytes : Obligations.TokenIsReadFromItsOwnBytes := by
  intro c x rest i h
  obtain ⟨bytes, hwf, henc, hx⟩ := decodeToken_ok h
  refine ⟨bytes, henc, hx, hwf, ?_, ?_⟩
  · rintro rfl
    exact encode_rle_length henc
  · rintro rfl
    exact encode_wm_length henc

/-- Settles O6: `Truncated` of each codec, written out. -/
theorem tokenIsRejectedExactlyWhenTruncated : Obligations.TokenIsRejectedExactlyWhenTruncated :=
  fun b t => ⟨decodeToken_error_iff .rle b t, decodeToken_error_iff .wm b t⟩

/-- Settles O1: each word and each stream is the encoding of a well-formed instruction (O3), the bytes after it
following. -/
theorem writtenOutWordsDecode : Obligations.WrittenOutWordsDecode :=
  ⟨decodeCommand_codec true .enc .rle, decodeCommand_codec true .dec .rle,
    decodeCommand_codec true .enc .wm, decodeCommand_codec true .dec .wm,
    decodeCommand_sel 3, decodeCommand_illegal rfl (by decide),
    decodeCommand_unsupportedAlg true .enc (alg := 3) (by decide), decodeCommand_illegal rfl (by decide),
    decodeRle_run 0x41 0x03 [0x42], decodeRle_lit (b := 0x42) (by decide) [],
    decodeWm_lit 0x41 [], decodeWm_match 0x03 0x0C [], decodeWm_badMarker (m := 0x41) (by decide) (by decide) [0x01]⟩

end Sys2Proof
end

section
/-! SUPPORT. The command family: the result each command word stands for, that it is the value of the pseudocode's
EXECUTE, and the steps that write CMD, commit and run a busy core to its commit. -/

namespace Sys2Proof.Machine

/-! ## The result of a command word -/

/-- The checks around a legal command's value (R126, R130), on the snapshot alone: `State.checked` without the state. -/
def checkedResult (b : Build) (n : Nat) (r : Result) : Result :=
  if b.ibufSize < n then .error .badLength else fitResult b r

/-- The result that a command word commits for the command `f` it works on; the no-operation and the tokens commit
none. -/
def commandResult (b : Build) (f : Flight) : Instr → Option Result
  | .rleEnc => some (checkedResult b f.n.toNat (.bytes (rleEnc f.cfg.ffesc f.x)))
  | .rleDec => some (checkedResult b f.n.toNat (f.decoder.finish .rle f.x))
  | .wmEnc => some (checkedResult b f.n.toNat (.bytes (wmEnc f.cfg.window f.cfg.minMatch b.wmOverlap f.x)))
  | .wmDec => some (checkedResult b f.n.toNat (f.decoder.finish .wm f.x))
  | .sel _ =>
    some (if b.hasSelector then checkedResult b f.n.toNat (.choice (select f.x)) else .error .illegalCommand)
  | .cmdUnsupportedAlg _ _ => some (.error .unsupportedAlgorithm)
  | .cmdIllegal _ => some (.error .illegalCommand)
  | _ => none

theorem checkedResult_badLength {b : Build} {n : Nat} (h : b.ibufSize < n) (r : Result) :
    checkedResult b n r = .error .badLength := if_pos h

/-- A choice passes the checks or fails them; it never becomes an output. -/
theorem checkedResult_choice_ne_bytes (b : Build) (n : Nat) (c : Codec) (y : List Byte) :
    checkedResult b n (.choice c) ≠ .bytes y := by
  unfold checkedResult
  split_ifs <;> exact nofun

/-- The meaning of a command word is the commit of its result, on the build and the command it works on alone. -/
theorem exec_of_commandResult {s : State} {i : Instr} {r : Result}
    (h : commandResult s.build s.operation i = some r) : exec i s = .next (s.commit r) := by
  cases i <;> cases h <;> rfl

/-- An error that keeps OBUF (R132), as the statements about commands say it. -/
theorem exec_failedKeepingOutput {s : State} {i : Instr} {e : CmdError}
    (h : commandResult s.build s.operation i = some (.error e)) (he : e.losesOutput = false) :
    ∃ t, exec i s = .next t ∧ FailedKeepingOutput s e t :=
  ⟨_, exec_of_commandResult h, State.takeError_keeping s e he⟩

theorem commandResult_sel {b : Build} (h : b.hasSelector = true) (f : Flight) (alg : BitVec 2) :
    commandResult b f (.sel alg) = some (checkedResult b f.n.toNat (.choice (select f.x))) :=
  congrArg some (if_pos h)

theorem commandResult_sel_absent {b : Build} (h : b.hasSelector = false) (f : Flight) (alg : BitVec 2) :
    commandResult b f (.sel alg) = some (.error .illegalCommand) :=
  congrArg some (if_neg (by simp [h]))

/-- Settles O23: each legal command's result is checked, and the length check comes first. -/
theorem legalCommandsCheckTheLength : Obligations.LegalCommandsCheckTheLength := by
  intro s i hlen hi
  have hchecked : ∃ r, commandResult s.build s.operation i =
      some (checkedResult s.build s.operation.n.toNat r) := by
    obtain rfl | rfl | rfl | rfl | ⟨hsel, alg, rfl⟩ := hi
    exacts [⟨_, rfl⟩, ⟨_, rfl⟩, ⟨_, rfl⟩, ⟨_, rfl⟩, ⟨_, commandResult_sel hsel s.operation alg⟩]
  obtain ⟨r, hr⟩ := hchecked
  rw [checkedResult_badLength hlen] at hr
  exact exec_failedKeepingOutput hr rfl

/-- Settles O24: the arm of the no-operation returns the state it is given. -/
theorem noOperationHasNoEffect : Obligations.NoOperationHasNoEffect := fun _ _ => rfl

/-- Settles O25: each of the three results is an error before any check of the length. -/
theorem rejectedWordsCommitTheirError : Obligations.RejectedWordsCommitTheirError := fun s =>
  ⟨fun _ _ => exec_failedKeepingOutput rfl rfl, fun _ => exec_failedKeepingOutput rfl rfl,
    fun hsel alg => exec_failedKeepingOutput (commandResult_sel_absent hsel s.operation alg) rfl⟩

/-! ## EXECUTE on the words of the command map -/

theorem cmdOp_commandWord (r : BitVec 26) (a : BitVec 2) (b : BitVec 1) (o : BitVec 2) (s : BitVec 1) :
    cmdOp (commandWord r a b o s) = o := commandWord_op r a b o s

theorem cmdAlg_commandWord (r : BitVec 26) (a : BitVec 2) (b : BitVec 1) (o : BitVec 2) (s : BitVec 1) :
    cmdAlg (commandWord r a b o s) = a := commandWord_alg r a b o s

namespace Reference

/-- The pseudocode's function of a codec command (R127), before the capacity test. -/
def codecValue (b : Build) (cfg : ConfigReg) (x : List Byte) : Direction → Codec → Result
  | .enc, .rle => .bytes (rleEnc cfg.ffesc x)
  | .enc, .wm => .bytes (wmEnc cfg.window cfg.minMatch b.wmOverlap x)
  | .dec, .rle => ofDecoded (rleDec x)
  | .dec, .wm => ofDecoded (wmDec x)

theorem execute_illegal {b : Build} {w : Word} (h : illegalWord b.hasSelector w) (cfg : ConfigReg) (n : Nat)
    (x : List Byte) : execute b w cfg n x = .error .illegalCommand := if_pos h

theorem execute_unsupportedAlg (b : Build) (op : Direction) {alg : BitVec 2} (h : 2 ≤ alg.toNat) (cfg : ConfigReg)
    (n : Nat) (x : List Byte) :
    execute b (commandWord 0 alg 0 op.op 1) cfg n x = .error .unsupportedAlgorithm := by
  have halg : alg = 2 ∨ alg = 3 := by revert alg; decide
  have hop : op.op = 0 ∨ op.op = 1 := by cases op <;> decide
  unfold execute
  rw [commandWord_reserved, commandWord_bit3, cmdOp_commandWord, cmdAlg_commandWord,
    if_neg (by simp [op.op_ne_two, op.op_ne_three]), if_pos ⟨hop, halg⟩]

theorem execute_sel {b : Build} (h : b.hasSelector = true) (alg : BitVec 2) (cfg : ConfigReg) (n : Nat)
    (x : List Byte) :
    execute b (commandWord 0 alg 0 2 1) cfg n x = checkedResult b n (.choice (select x)) := by
  unfold execute
  rw [commandWord_reserved, commandWord_bit3, cmdOp_commandWord]
  simp [h, checkedResult, fitResult]

/-- A codec command is its function between the length check and the capacity test. -/
theorem execute_codec (b : Build) (op : Direction) (c : Codec) (cfg : ConfigReg) (n : Nat) (x : List Byte) :
    execute b (commandWord 0 c.alg 0 op.op 1) cfg n x = checkedResult b n (codecValue b cfg x op c) := by
  unfold execute
  rw [commandWord_reserved, commandWord_bit3, cmdOp_commandWord, cmdAlg_commandWord]
  cases op <;> cases c <;> rfl

end Reference

/-! ## The command in flight commits EXECUTE -/

/-- A decoder on its run ends in what the whole stream decodes to (R156, R190). -/
theorem Decoder.finish_onRun {c : Codec} {x : List Byte} {d : Decoder} (h : d.OnRun c x) :
    d.finish c x = Decoder.fresh.finish c x := congrArg Decoder.result h

/-- A decode in flight has the result of decoding its whole stream, wherever on its run the decoder stands. -/
theorem checkedResult_finish {s : State} {f : Flight} (hinv : FlightInv s f) {c : Codec}
    (hc : decoderOf (f.instr s.build) = some c) :
    checkedResult s.build f.n.toNat (f.decoder.finish c f.x) =
      checkedResult s.build f.n.toNat (Decoder.fresh.finish c f.x) := by
  by_cases hlen : s.build.ibufSize < f.n.toNat
  · rw [checkedResult_badLength hlen, checkedResult_badLength hlen]
  · have hcodec : f.codec s.build = some c := (if_neg hlen).trans hc
    rw [Decoder.finish_onRun (hinv.onRun c hcodec)]

/-- A codec command in flight has the pseudocode's result (R150, R156, R180, R190). -/
theorem commandResult_codec {s : State} {f : Flight} (hinv : FlightInv s f) {op : Direction} {c : Codec}
    (hi : f.instr s.build = codecCommand op c) :
    commandResult s.build f (codecCommand op c) =
      some (checkedResult s.build f.n.toNat (Reference.codecValue s.build f.cfg f.x op c)) := by
  cases op with
  | enc =>
    cases c with
    | rle => rw [Reference.codecValue, Reference.rleEnc_eq]; rfl
    | wm => rw [Reference.codecValue, Reference.wmEnc_eq]; rfl
  | dec =>
    cases c with
    | rle =>
      rw [Reference.codecValue, ← rleDec_eq]
      exact congrArg some (checkedResult_finish hinv (congrArg decoderOf hi))
    | wm =>
      rw [Reference.codecValue, ← wmDec_eq]
      exact congrArg some (checkedResult_finish hinv (congrArg decoderOf hi))

/-- A codec command in flight stands for the value of EXECUTE. -/
theorem commandResult_codec_execute {s : State} {f : Flight} (hinv : FlightInv s f) (op : Direction) (c : Codec)
    (henc : encode (codecCommand op c) = .command f.word) :
    commandResult s.build f (codecCommand op c) =
      some (Reference.execute s.build f.word f.cfg f.n.toNat f.x) := by
  have hword : commandWord 0 c.alg 0 op.op 1 = f.word := Code.command.inj ((encode_codecCommand op c).symm.trans henc)
  have hi : f.instr s.build = codecCommand op c :=
    decodeCommand_of_encode (wf_codecCommand s.build.hasSelector op c) henc
  rw [commandResult_codec hinv hi, ← hword, Reference.execute_codec]

/-- A started word is no encoding of a no-operation (R121). -/
theorem encode_cmdNop_ne {w : Word} (hw : cmdStart w = 1) (rest : BitVec 31) : encode (.cmdNop rest) ≠ .command w := by
  intro henc
  have hstart : cmdStart w = 0 := (cmdStart_eq_zero_iff_append w).2 ⟨rest, (Code.command.inj henc).symm⟩
  rw [hw] at hstart
  cases hstart

/-- The started command in flight stands for the value of the pseudocode's EXECUTE on its snapshot (R127). -/
theorem commandResult_execute {s : State} {f : Flight} (hinv : FlightInv s f) :
    commandResult s.build f (f.instr s.build) =
      some (Reference.execute s.build f.word f.cfg f.n.toNat f.x) := by
  obtain ⟨i, hwf, henc⟩ := exists_encode_eq_command s.build.hasSelector f.word
  have hi : f.instr s.build = i := decodeCommand_of_encode hwf henc
  rw [hi]
  cases i with
  | rleEnc => exact commandResult_codec_execute hinv .enc .rle henc
  | rleDec => exact commandResult_codec_execute hinv .dec .rle henc
  | wmEnc => exact commandResult_codec_execute hinv .enc .wm henc
  | wmDec => exact commandResult_codec_execute hinv .dec .wm henc
  | sel alg => rw [← Code.command.inj henc, commandResult_sel hwf, Reference.execute_sel hwf]
  | cmdUnsupportedAlg op alg =>
    rw [← Code.command.inj henc, Reference.execute_unsupportedAlg _ op (of_decide_eq_true hwf)]
    rfl
  | cmdIllegal w =>
    simp only [Instr.wf, Bool.and_eq_true, decide_eq_true_eq] at hwf
    obtain ⟨-, hill⟩ := hwf
    rw [← Code.command.inj henc, Reference.execute_illegal hill]
    rfl
  | cmdNop rest => exact absurd henc (encode_cmdNop_ne hinv.started rest)
  | _ => cases henc

/-- The commit of the command in flight is the commit of its result. -/
theorem commitTurn_of_commandResult {s : State} {f : Flight} {r : Result} (hf : s.flight = some f)
    (hr : commandResult s.build f (f.instr s.build) = some r) : commitTurn s = .next (s.commit r) := by
  rw [commitTurn_busy hf]
  exact exec_of_commandResult (by rwa [State.operation_flight hf])

theorem commitTurn_execute {s : State} {f : Flight} (hinv : s.Inv) (hf : s.flight = some f) :
    commitTurn s = .next (s.commit (Reference.execute s.build f.word f.cfg f.n.toNat f.x)) :=
  commitTurn_of_commandResult hf (commandResult_execute (hinv.flight f hf))

/-- Settles O8: the commit's turn is `exec` of the instruction of the command in flight. -/
theorem stepRunsTheCommandInFlight : Obligations.StepRunsTheCommandInFlight := by
  intro s f es hf he
  rw [step_commit he]
  exact commitTurn_busy hf

/-- Settles O28: using up the input keeps the invariant, and under it the commit's turn commits EXECUTE. -/
theorem commitStepCommitsExecute : Obligations.CommitStepCommitsExecute := by
  intro s f es hinv hf he
  rw [step_commit he]
  exact commitTurn_execute (hinv.withPending es) hf

/-! ## A busy core left alone -/

/-- With nothing pending and no token to execute, the core's own move is the commit. -/
theorem step_notReady {s : State} (he : s.pending = []) (h : s.tokenReady = none) : step s = commitTurn s := by
  simp only [step, he, engineTurn, h]

/-- With nothing pending and a token to execute, the core's own move is one round of the decoder's loop. -/
theorem step_ready {s : State} {c : Codec} {f : Flight} (he : s.pending = []) (h : s.tokenReady = some (c, f)) :
    step s = .next { s with flight := some { f with decoder := f.decoder.tokenStep c f.x } } := by
  have hturn : step s = tokenTurn s := by simp only [step, he, engineTurn, h]
  exact hturn.trans (tokenTurn_eq h)

/-- A run is its first step and the rest of it. -/
theorem run_succ {M : Host.Core} {s t : M.State} (h : M.step s = .next t) (k : Nat) :
    M.run (k + 1) s = M.run k t := by
  rw [Host.Core.run, h]

/-- The measure of a decode that runs by itself: a round of the loop leaves no token, or fewer bytes of the stream. -/
theorem Decoder.tokenStep_bytesLeft {c : Codec} {x : List Byte} {d : Decoder} {m : Nat} (ha : d.active x)
    (hm : x.length - d.pos ≤ m + 1) (ha' : (d.tokenStep c x).active x) : x.length - (d.tokenStep c x).pos ≤ m := by
  rcases Decoder.tokenStep_cases c x d ha with hraise | ⟨-, hlt, -⟩
  · rw [hraise] at ha'
    exact absurd ha' (d.raise_not_active x)
  · omega

/-- With at most `m` bytes of the stream left to a decoder that has a token to execute, the core commits EXECUTE's value
within `m + 1` steps. -/
theorem run_commits_execute (m : Nat) {s : State} {f : Flight} (hinv : s.Inv) (hf : s.flight = some f)
    (he : s.pending = []) (hm : f.decoder.active f.x → f.x.length - f.decoder.pos ≤ m) :
    ∃ k, k ≤ m + 1 ∧ Host.Core.run Sys2Proof.core k s =
      .next (s.commit (Reference.execute s.build f.word f.cfg f.n.toNat f.x)) := by
  induction m using Nat.strong_induction_on generalizing s f with
  | _ m ih =>
    cases hr : s.tokenReady with
    | none =>
      have hstep := (step_notReady he hr).trans (commitTurn_execute hinv hf)
      exact ⟨1, Nat.le_add_left 1 m, run_succ (M := Sys2Proof.core) hstep 0⟩
    | some p =>
      obtain ⟨c, g⟩ := p
      obtain ⟨hflight, -, ha⟩ := State.tokenReady_some hr
      obtain rfl : f = g := Option.some.inj (hf.symm.trans hflight)
      have hstep := step_ready he hr
      obtain ⟨m, rfl⟩ : ∃ m', m = m' + 1 := Nat.exists_eq_succ_of_ne_zero fun h0 => by
        have hleft := hm ha
        have hpos := ha.2
        omega
      obtain ⟨k, hk, hrun⟩ := ih m (Nat.lt_succ_self m) (f := { f with decoder := f.decoder.tokenStep c f.x })
        (everyStepKeepsTheInvariant s _ hinv hstep) rfl he (Decoder.tokenStep_bytesLeft ha (hm ha))
      rw [State.commit_flight] at hrun
      exact ⟨k + 1, Nat.succ_le_succ hk, (run_succ (M := Sys2Proof.core) hstep k).trans hrun⟩

/-- Settles O29: the stream is as long as the bytes its decoder can have left. -/
theorem busyCoreCommitsWhenLeftAlone : Obligations.BusyCoreCommitsWhenLeftAlone := fun _ f hinv hf he =>
  run_commits_execute f.x.length hinv hf he fun _ => Nat.sub_le _ _

/-! ## What a commit shows of its result -/

theorem State.commit_err_eq (r : Result) (s s' : State) : (s.commit r).err = (s'.commit r).err := by
  cases r <;> rfl

theorem State.commit_outLen_eq (r : Result) (s s' : State) : (s.commit r).outLen = (s'.commit r).outLen := by
  cases r <;> rfl

/-- Inside the output, OBUF holds the output. -/
theorem State.commitBytes_read (s : State) {y : List Byte} {k : Nat} (hk : k < y.length) :
    (s.commitBytes y).obuf.read k = y[k] := by
  rw [State.commitBytes_obuf, Memory.read_writeAll, if_pos (Nat.zero_le k), Nat.sub_zero, List.getElem?_eq_getElem hk,
    Option.getD_some]

/-- The bytes below OUT_LEN are the result's, whatever OBUF held before. -/
theorem State.commit_read_eq (r : Result) (s s' : State) {k : Nat} (hk : k < (s.commit r).outLen.toNat) :
    (s.commit r).obuf.read k = (s'.commit r).obuf.read k := by
  cases r with
  | bytes y =>
    have hlen : k < y.length := by
      rw [State.commit_bytes, State.commitBytes_outLen, BitVec.toNat_ofNat] at hk
      exact hk.trans_le (Nat.mod_le _ _)
    rw [State.commit_bytes, State.commit_bytes, State.commitBytes_read s hlen, State.commitBytes_read s' hlen]
  | choice c => exact absurd hk (Nat.not_lt_zero k)
  | error e => exact absurd hk (Nat.not_lt_zero k)

/-- RESULT.SEL after a commit with ERR 0 of a result that is no output is the choice. -/
theorem State.commit_resultSel_eq {r : Result} {s : State} (s' : State) (hbytes : ∀ y, r ≠ .bytes y)
    (herr : (s.commit r).err = none) : (s.commit r).resultSel = (s'.commit r).resultSel := by
  cases r with
  | bytes y => exact absurd rfl (hbytes y)
  | choice c => rfl
  | error e => cases herr

/-- A started command word stands for a result, in whatever state its decoder is. -/
theorem exists_commandResult {b : Build} {f : Flight} (hw : cmdStart f.word = 1) :
    ∃ r, commandResult b f (f.instr b) = some r := by
  obtain ⟨i, hwf, henc⟩ := exists_encode_eq_command b.hasSelector f.word
  have hi : f.instr b = i := decodeCommand_of_encode hwf henc
  rw [hi]
  cases i with
  | cmdNop rest => exact absurd henc (encode_cmdNop_ne hw rest)
  | rleLit | rleRun | wmLit | wmMatch | wmBadMarker => cases henc
  | _ => exact ⟨_, rfl⟩

/-- A started word with OP = 2 is `SEL` or illegal (R105, R124). -/
theorem decodeCommand_op_two (hasSelector : Bool) {w : Word} (hw : cmdStart w = 1) (hop : cmdOp w = 2) :
    decodeCommand hasSelector w = .cmdIllegal w ∨ decodeCommand hasSelector w = .sel (cmdAlg w) := by
  by_cases hill : illegalWord hasSelector w
  · exact .inl (decodeCommand_illegal hw hill)
  · right
    rw [decodeCommand, if_neg (by simp [hw]), if_neg hill, if_pos hop]

/-- The result of a started word with OP = 2 is a choice or an error. -/
theorem commandResult_op_two {b : Build} {f : Flight} {r : Result} (hw : cmdStart f.word = 1) (hop : cmdOp f.word = 2)
    (hr : commandResult b f (f.instr b) = some r) (y : List Byte) : r ≠ .bytes y := by
  rw [Flight.instr] at hr
  obtain hi | hi := decodeCommand_op_two b.hasSelector hw hop
  · rw [hi] at hr
    cases hr
    exact nofun
  · rw [hi] at hr
    cases hr
    split_ifs
    · exact checkedResult_choice_ne_bytes b _ _ y
    · exact nofun

/-- START, bit 0 of a CMD word (R102). -/
theorem cmdStart_eq_one_of_bit {w : Word} (h : w.getLsbD 0 = true) : cmdStart w = 1 :=
  cmdStart_eq_one fun h0 => Bool.noConfusion (h.symm.trans ((cmdStart_eq_zero w).1 h0))

/-- Settles O30: both commits are of one result, which the build and the command in flight give. -/
theorem resultDependsOnlyOnTheSnapshot : Obligations.ResultDependsOnlyOnTheSnapshot := by
  intro s s' t t' f es es' hbuild hf hf' hstart he he' ht ht'
  have hw := cmdStart_eq_one_of_bit hstart
  obtain ⟨r, hr⟩ := exists_commandResult (b := s.build) hw
  rw [step_commit he, commitTurn_of_commandResult (by exact hf) (by exact hr)] at ht
  rw [step_commit he', commitTurn_of_commandResult (by exact hf') (by rw [hbuild] at hr; exact hr)] at ht'
  cases ht
  cases ht'
  exact ⟨State.commit_err_eq r _ _, State.commit_outLen_eq r _ _, fun k hk => State.commit_read_eq r _ _ hk,
    fun hop herr => State.commit_resultSel_eq _ (commandResult_op_two hw hop hr) herr⟩

/-! ## Writes to CMD -/

/-- A host write to CMD with START = 0 is `exec` of the no-operation, after the response (R121). -/
theorem step_writeNop {s : State} {w : Word} {es : List Event} (he : s.pending = .host (.write 0x18 4 w) :: es)
    (hw : cmdStart w = 0) :
    step s = exec (decodeCommand s.build.hasSelector w) { s with pending := es, response := some .ok } := by
  have hcmd : resolve s.build 0x18 4 = .ok (.reg .cmd) := resolve_reg s.build .cmd
  simp only [step_host he, hostTurn, busAccess, hcmd, State.writeTarget, State.writeReg, State.writeCmd, if_pos hw,
    busOutcome, Txn.writtenNop, State.respond]

theorem State.writeCmd_idle {s : State} (h : s.flight = none) {w : Word} (hw : cmdStart w ≠ 0) :
    s.writeCmd w = s.accept w := by
  rw [State.writeCmd, if_neg hw, State.busy_eq_false.2 h]
  rfl

theorem State.writeCmd_busy {s : State} {f : Flight} (h : s.flight = some f) {w : Word} (hw : cmdStart w ≠ 0) :
    s.writeCmd w = s.hazard := by
  rw [State.writeCmd, if_neg hw, State.busy, h]
  rfl

/-- The bytes from index 0 on are those at the indices below `n`. -/
theorem Memory.readAll_zero (m : Memory) (n : Nat) : m.readAll 0 n = (List.range n).map m.read := by
  rw [Memory.readAll, List.range_eq_range']

/-- Settles O9: the step is `exec` of a no-operation, which returns the state it is given. -/
theorem stepRunsTheWrittenNoOperation : Obligations.StepRunsTheWrittenNoOperation := by
  intro s w es he hbit
  have hw : cmdStart w = 0 := (cmdStart_eq_zero w).2 hbit
  refine ⟨step_writeNop he hw, ?_⟩
  rw [step_writeNop he hw, decodeCommand_nop hw]
  exact noOperationHasNoEffect _ _

/-- Settles O26: the idle core accepts the word, and its snapshot is that of R123. -/
theorem startWhileIdleIsAccepted : Obligations.StartWhileIdleIsAccepted := by
  intro s w es hidle he hbit
  have hw : cmdStart w ≠ 0 := by simp [cmdStart_eq_one_of_bit hbit]
  rw [step_writeStart he hw, State.writeCmd_idle (by exact hidle) hw, ← Memory.readAll_zero]
  rfl

/-- Settles O27: the busy core ignores the word and sets HAZ. -/
theorem startWhileBusyIsIgnored : Obligations.StartWhileBusyIsIgnored := by
  intro s f w es hf he hbit
  have hw : cmdStart w ≠ 0 := by simp [cmdStart_eq_one_of_bit hbit]
  rw [step_writeStart he hw, State.writeCmd_busy (by exact hf) hw]
  rfl

end Sys2Proof.Machine
end

section
/-! SUPPORT. The RLE family: the tokens on the command in flight, the chunks of the encoder and what each is emitted as,
the decoders' loop as an induction, and the two RLE commands as commits of the pseudocode's values. -/

namespace Sys2Proof.Machine

/-! ## Tokens on the command in flight (R157, R158, R191) -/

/-- A token's effect reaches the decoder of the command in flight and nothing else. -/
theorem State.onDecoder_inFlight {s : State} {f : Flight} (h : s.flight = some f) (effect : Decoder → Decoder) :
    s.onDecoder effect = { s with flight := some { f with decoder := effect f.decoder } } := by
  rw [State.onDecoder, h, Option.map_some]

/-- Settles O11: each literal is `exec` of its effect on the decoder in flight. -/
theorem literalTokensAppendTheirByte : Obligations.LiteralTokensAppendTheirByte := by
  intro s f v hf
  exact ⟨congrArg Host.Outcome.next (State.onDecoder_inFlight hf (rleLitEffect v)),
    congrArg Host.Outcome.next (State.onDecoder_inFlight hf (wmLitEffect v))⟩

/-- Settles O12, as the literals. -/
theorem rleRunAppendsItsCopies : Obligations.RleRunAppendsItsCopies := by
  intro s f v c hf
  exact congrArg Host.Outcome.next (State.onDecoder_inFlight hf (rleRunEffect v c))

/-! ## Chunks (R151) -/

namespace Reference

/-- A chunk ends where it is full or the next byte differs. -/
theorem chunksFrom_flush {v : Byte} {c : Nat} {rest : List Byte} (h : rest.head? = some v → 255 ≤ c) :
    chunksFrom v c rest = (v, c) :: chunks rest := by
  cases rest with
  | nil => rfl
  | cons b bs =>
    have hstop : ¬ (b = v ∧ c < 255) := fun ⟨hb, hc⟩ => by
      have := h (congrArg some hb)
      omega
    rw [chunksFrom, if_neg hstop, chunks]

/-- Equal bytes lengthen a chunk while it has room. -/
theorem chunksFrom_replicate (v : Byte) (n c : Nat) (rest : List Byte) (h : c + n ≤ 255) :
    chunksFrom v c (List.replicate n v ++ rest) = chunksFrom v (c + n) rest := by
  induction n generalizing c with
  | zero => rfl
  | succ n ih =>
    rw [List.replicate_succ, List.cons_append, chunksFrom, if_pos ⟨rfl, by omega⟩, ih (c + 1) (by omega),
      Nat.add_right_comm, Nat.add_assoc]

/-- Equal bytes that fill a chunk, or that a different byte follows, are one chunk. -/
theorem chunks_replicate_append {v : Byte} {n : Nat} {rest : List Byte} (h0 : n ≠ 0) (hn : n ≤ 255)
    (hrest : rest.head? = some v → n = 255) :
    chunks (List.replicate n v ++ rest) = (v, n) :: chunks rest := by
  obtain ⟨m, rfl⟩ := Nat.exists_eq_succ_of_ne_zero h0
  rw [List.replicate_succ, List.cons_append, chunks, chunksFrom_replicate v m 1 rest (by omega), Nat.add_comm 1 m]
  exact chunksFrom_flush fun hv => (hrest hv).ge

/-- A maximal run of `255 q + r` bytes is `q` full chunks and, unless `r` is 0, one of `r`. -/
theorem chunks_run {v : Byte} {r : Nat} {rest : List Byte} (hr : r < 255) (hrest : rest.head? ≠ some v) (q : Nat) :
    chunks (List.replicate (255 * q + r) v ++ rest) =
      List.replicate q (v, 255) ++ (if r ≠ 0 then [(v, r)] else []) ++ chunks rest := by
  induction q with
  | zero =>
    by_cases h0 : r = 0
    · subst h0
      rfl
    · rw [Nat.mul_zero, Nat.zero_add, chunks_replicate_append h0 hr.le fun hv => absurd hv hrest, if_pos h0]
      rfl
  | succ q ih =>
    rw [show 255 * (q + 1) + r = 255 + (255 * q + r) by omega, List.replicate_add, List.append_assoc,
      chunks_replicate_append (by decide) le_rfl fun _ => rfl, ih, List.replicate_succ]
    rfl

theorem chunksFrom_bounds {v : Byte} {c : Nat} (bs : List Byte) (h1 : 1 ≤ c) (hc : c ≤ 255) :
    ∀ p ∈ chunksFrom v c bs, 1 ≤ p.2 ∧ p.2 ≤ 255 := by
  induction bs generalizing v c with
  | nil => simpa [chunksFrom] using ⟨h1, hc⟩
  | cons b bs ih =>
    rw [chunksFrom]
    split_ifs with hroom
    · exact ih (by omega) hroom.2
    · exact List.forall_mem_cons.2 ⟨⟨h1, hc⟩, ih le_rfl (by decide)⟩

/-- A chunk has 1 to 255 bytes, so its length fits the count of a `Run`. -/
theorem chunks_bounds (x : List Byte) : ∀ p ∈ chunks x, 1 ≤ p.2 ∧ p.2 ≤ 255 := by
  cases x with
  | nil => exact nofun
  | cons b bs => exact chunksFrom_bounds bs le_rfl (by decide)

theorem chunksFrom_flatMap_replicate (v : Byte) (c : Nat) (bs : List Byte) :
    (chunksFrom v c bs).flatMap (fun p => List.replicate p.2 p.1) = List.replicate c v ++ bs := by
  induction bs generalizing v c with
  | nil => simp [chunksFrom]
  | cons b bs ih =>
    rw [chunksFrom]
    split_ifs with hroom
    · rw [ih, hroom.1, List.replicate_succ', List.append_assoc, List.singleton_append]
    · rw [List.flatMap_cons, ih]
      rfl

/-- The chunks, written out, are the input. -/
theorem chunks_flatMap_replicate (x : List Byte) : (chunks x).flatMap (fun p => List.replicate p.2 p.1) = x := by
  cases x with
  | nil => rfl
  | cons b bs => exact chunksFrom_flatMap_replicate b 1 bs

theorem mem_of_mem_chunks {x : List Byte} {p : Byte × Nat} (h : p ∈ chunks x) : p.1 ∈ x := by
  rw [← chunks_flatMap_replicate x]
  exact List.mem_flatMap.2 ⟨p, h, List.mem_replicate.2 ⟨Nat.one_le_iff_ne_zero.1 (chunks_bounds x p h).1, rfl⟩⟩

/-- The chunks' lengths add up to the input's. -/
theorem sum_chunks_length (x : List Byte) : ((chunks x).map Prod.snd).sum = x.length := by
  conv_rhs => rw [← chunks_flatMap_replicate x, List.length_flatMap]
  simp only [List.length_replicate]

end Reference

/-! ## The encoder is its chunks, each emitted on its own (R152) -/

theorem rleScan_eq_flatMap (ffesc : Bool) (v : Byte) (c : Nat) (bs : List Byte) :
    rleScan ffesc v c bs = (Reference.chunksFrom v c bs).flatMap fun p => rleEmit ffesc p.1 p.2 := by
  induction bs generalizing v c with
  | nil => simp [rleScan, Reference.chunksFrom]
  | cons b bs ih =>
    rw [rleScan, Reference.chunksFrom]
    split_ifs
    · exact ih v (c + 1)
    · rw [List.flatMap_cons, ih]

theorem rleEnc_eq_flatMap (ffesc : Bool) (x : List Byte) :
    rleEnc ffesc x = (Reference.chunks x).flatMap fun p => rleEmit ffesc p.1 p.2 := by
  cases x with
  | nil => rfl
  | cons b bs => exact rleScan_eq_flatMap ffesc b 1 bs

/-- Settles O53: the run by its quotient and remainder, and the encoder chunk by chunk. -/
theorem runsSplitIntoChunks : Obligations.RunsSplitIntoChunks := by
  refine ⟨fun v len rest _ hrest => ?_, rleEnc_eq_flatMap⟩
  have hrun := Reference.chunks_run (Nat.mod_lt len (by decide : 0 < 255)) hrest (len / 255)
  rwa [Nat.div_add_mod] at hrun

/-! ## The length of an encoding (R155) -/

theorem rleEmit_run {ffesc : Bool} {v : Byte} {c : Nat} (h : 2 < c ∨ (ffesc = true ∧ v = 0xFF)) :
    rleEmit ffesc v c = [0xFF, v, BitVec.ofNat 8 c] := if_pos h

theorem rleEmit_raw {ffesc : Bool} {v : Byte} {c : Nat} (h : ¬ (2 < c ∨ (ffesc = true ∧ v = 0xFF))) :
    rleEmit ffesc v c = List.replicate c v := if_neg h

/-- With FFESC = 0 a chunk is emitted as at most 3 bytes, and never as more than it has. -/
theorem rleEmit_false_length (v : Byte) (c : Nat) : (rleEmit false v c).length = min c 3 := by
  by_cases h : 2 < c
  · rw [rleEmit_run (.inl h), min_eq_right h]
    rfl
  · rw [rleEmit_raw (by simpa using h), List.length_replicate, min_eq_left (by omega)]

/-- The worst case is a single byte 0xFF as a `Run`. -/
theorem rleEmit_length_le (ffesc : Bool) (v : Byte) {c : Nat} (h1 : 1 ≤ c) :
    (rleEmit ffesc v c).length ≤ 3 * c := by
  by_cases h : 2 < c ∨ (ffesc = true ∧ v = 0xFF)
  · rw [rleEmit_run h, List.length_cons, List.length_cons, List.length_singleton]
    omega
  · rw [rleEmit_raw h, List.length_replicate]
    omega

theorem rleEnc_length (ffesc : Bool) (x : List Byte) :
    (rleEnc ffesc x).length = ((Reference.chunks x).map fun p => (rleEmit ffesc p.1 p.2).length).sum := by
  rw [rleEnc_eq_flatMap, List.length_flatMap]

theorem rleEnc_false_length (x : List Byte) :
    (rleEnc false x).length = ((Reference.chunks x).map fun p => min p.2 3).sum := by
  simp only [rleEnc_length, rleEmit_false_length]

theorem rleEnc_false_length_le (x : List Byte) : (rleEnc false x).length ≤ x.length := by
  rw [rleEnc_false_length, ← Reference.sum_chunks_length x]
  exact List.sum_le_sum fun p _ => min_le_left p.2 3

/-- One chunk of 4 bytes or more makes the encoding shorter than the input. -/
theorem rleEnc_false_length_lt {x : List Byte} {p : Byte × Nat} (hp : p ∈ Reference.chunks x) (h : 3 < p.2) :
    (rleEnc false x).length < x.length := by
  rw [rleEnc_false_length, ← Reference.sum_chunks_length x]
  exact List.sum_lt_sum _ _ (fun q _ => min_le_left q.2 3) ⟨p, hp, (min_le_right p.2 3).trans_lt h⟩

theorem rleEnc_false_length_eq_iff (x : List Byte) :
    (rleEnc false x).length = x.length ↔ ∀ p ∈ Reference.chunks x, p.2 ≤ 3 := by
  constructor
  · intro heq p hp
    by_contra hlong
    exact absurd heq (rleEnc_false_length_lt hp (not_le.1 hlong)).ne
  · intro hshort
    rw [rleEnc_false_length, ← Reference.sum_chunks_length x]
    exact congrArg List.sum (List.map_congr_left fun p hp => min_eq_left (hshort p hp))

theorem rleEnc_length_le (ffesc : Bool) (x : List Byte) : (rleEnc ffesc x).length ≤ 3 * x.length := by
  rw [rleEnc_length, ← Reference.sum_chunks_length x, ← List.sum_map_mul_left]
  exact List.sum_le_sum fun p hp => rleEmit_length_le ffesc p.1 (Reference.chunks_bounds x p hp).1

/-- Settles O54: the emitted lengths of the chunks against their own, chunk by chunk. -/
theorem rleEncodingLength : Obligations.RleEncodingLength := fun x =>
  ⟨rleEnc_false_length_le x, rleEnc_false_length_eq_iff x, rleEnc_length_le true x⟩

/-! ## The round trip (R161) -/

theorem Reference.prependTo_nil (y : Option (List Byte)) : Reference.prependTo [] y = y := by cases y <;> rfl

/-- Raw bytes other than the marker decode to themselves, each as a literal. -/
theorem Reference.rleDec_replicate {v : Byte} (hv : v ≠ 0xFF) (c : Nat) (rest : List Byte) :
    Reference.rleDec (List.replicate c v ++ rest) =
      Reference.prependTo (List.replicate c v) (Reference.rleDec rest) := by
  induction c with
  | zero => rw [List.replicate_zero, List.nil_append, Reference.prependTo_nil]
  | succ c ih =>
    rw [List.replicate_succ, List.cons_append, Reference.rleDec_lit hv, ih, ← Reference.prependTo_append]
    rfl

/-- A chunk is read back from what it was emitted as, unless it is a 0xFF chunk emitted raw. -/
theorem rleDec_rleEmit {ffesc : Bool} {v : Byte} {c : Nat} (hc : c ≤ 255)
    (hmarker : v = 0xFF → 2 < c ∨ ffesc = true) (rest : List Byte) :
    Reference.rleDec (rleEmit ffesc v c ++ rest) =
      Reference.prependTo (List.replicate c v) (Reference.rleDec rest) := by
  by_cases hrun : 2 < c ∨ (ffesc = true ∧ v = 0xFF)
  · have hcount : (BitVec.ofNat 8 c).toNat = c := by
      rw [BitVec.toNat_ofNat, Nat.mod_eq_of_lt (by omega)]
    have hdec := Reference.rleDec_run v (BitVec.ofNat 8 c) rest
    rw [hcount] at hdec
    rw [rleEmit_run hrun]
    exact hdec
  · have hv : v ≠ 0xFF := fun hff => hrun ((hmarker hff).imp_right fun hesc => ⟨hesc, hff⟩)
    rw [rleEmit_raw hrun, Reference.rleDec_replicate hv]

theorem rleDec_flatMap_rleEmit {ffesc : Bool} {l : List (Byte × Nat)}
    (h : ∀ p ∈ l, p.2 ≤ 255 ∧ (p.1 = 0xFF → 2 < p.2 ∨ ffesc = true)) :
    Reference.rleDec (l.flatMap fun p => rleEmit ffesc p.1 p.2) =
      some (l.flatMap fun p => List.replicate p.2 p.1) := by
  induction l with
  | nil => rfl
  | cons p l ih =>
    obtain ⟨⟨hc, hmarker⟩, hl⟩ := List.forall_mem_cons.1 h
    rw [List.flatMap_cons, rleDec_rleEmit hc hmarker, ih hl]
    rfl

/-- The round trip holds where no chunk of the marker's value is emitted raw. -/
theorem rleDec_rleEnc {ffesc : Bool} {x : List Byte}
    (h : ∀ p ∈ Reference.chunks x, p.1 = 0xFF → 2 < p.2 ∨ ffesc = true) : rleDec (rleEnc ffesc x) = .bytes x := by
  rw [rleDec_eq, rleEnc_eq_flatMap,
    rleDec_flatMap_rleEmit fun p hp => ⟨(Reference.chunks_bounds x p hp).2, h p hp⟩,
    Reference.chunks_flatMap_replicate]
  rfl

/-- Settles O51: in each case every 0xFF chunk is emitted as a `Run`, or there is none. -/
theorem rleRoundTrip : Obligations.RleRoundTrip := by
  refine ⟨fun x => ?_, fun x hlong => ?_, fun x hnone => ?_⟩
  · exact rleDec_rleEnc fun _ _ _ => .inr rfl
  · exact rleDec_rleEnc fun p hp hff => .inl (hlong p hp hff)
  · exact rleDec_rleEnc fun p hp hff => absurd (hff ▸ Reference.mem_of_mem_chunks hp) hnone

/-! ## The loop of a decoder -/

/-- What every round of the loop keeps, a run keeps. -/
theorem Decoder.run_induction {c : Codec} {x : List Byte} {P : Decoder → Prop}
    (hstep : ∀ d, d.active x → P d → P (d.tokenStep c x)) (n : Nat) {d : Decoder} (hd : P d) :
    P (Decoder.run c x n d) := by
  induction n generalizing d with
  | zero => exact hd
  | succ n ih =>
    by_cases ha : d.active x
    · rw [Decoder.run_active _ _ _ ha]
      exact ih (hstep d ha hd)
    · rw [Decoder.run_inactive _ _ _ ha]
      exact hd

/-- A run in two parts ends where the whole run ends. -/
theorem Decoder.run_run (c : Codec) (x : List Byte) (n : Nat) (d : Decoder) :
    Decoder.run c x x.length (Decoder.run c x n d) = Decoder.run c x x.length d :=
  Decoder.run_induction (P := fun e => Decoder.run c x x.length e = Decoder.run c x x.length d)
    (fun _ ha he => (Decoder.run_tokenStep c x ha).trans he) n rfl

/-- A run that fails does so in one round: it reaches a token on which the round fails. -/
theorem Decoder.exists_failing_round {c : Codec} {x : List Byte} {n : Nat} {d : Decoder} (hb : d.bad = false)
    (h : (Decoder.run c x n d).bad = true) :
    ∃ m, (Decoder.run c x m d).active x ∧ ((Decoder.run c x m d).tokenStep c x).bad = true := by
  induction n generalizing d with
  | zero => exact Bool.noConfusion (hb.symm.trans h)
  | succ n ih =>
    by_cases ha : d.active x
    · rw [Decoder.run_active _ _ _ ha] at h
      cases hround : (d.tokenStep c x).bad with
      | true => exact ⟨0, ha, hround⟩
      | false =>
        obtain ⟨m, hm⟩ := ih hround h
        exact ⟨m + 1, by rwa [Decoder.run_active _ _ _ ha]⟩
    · rw [Decoder.run_inactive _ _ _ ha] at h
      exact Bool.noConfusion (hb.symm.trans h)

/-- A decode fails exactly when its loop reaches a token on which the round fails (R159, R193). -/
theorem Decoder.run_bad_iff {c : Codec} {x : List Byte} {d : Decoder} (hb : d.bad = false) :
    (Decoder.run c x x.length d).bad = true ↔
      ∃ m, (Decoder.run c x m d).active x ∧ ((Decoder.run c x m d).tokenStep c x).bad = true := by
  refine ⟨Decoder.exists_failing_round hb, ?_⟩
  rintro ⟨m, ha, hround⟩
  have hstop : ¬ ((Decoder.run c x m d).tokenStep c x).active x := fun ⟨hgood, _⟩ =>
    Bool.noConfusion (hgood.symm.trans hround)
  rwa [← Decoder.run_run c x m d, ← Decoder.run_tokenStep c x ha, Decoder.run_inactive _ _ _ hstop]

theorem Decoder.result_malformed_iff (d : Decoder) : d.result = .error .malformedStream ↔ d.bad = true := by
  cases h : d.bad <;> simp [Decoder.result, h]

/-- A decoder with an output for a result has not failed, and that is its output. -/
theorem Decoder.result_bytes {d : Decoder} {y : List Byte} (h : d.result = .bytes y) : d.bad = false ∧ d.out = y := by
  unfold Decoder.result at h
  split_ifs at h with hb
  exact ⟨Bool.eq_false_of_not_eq_true hb, Result.bytes.inj h⟩

/-! ## Where an RLE decode fails (R159) -/

/-- No RLE token fails by itself. -/
theorem tokenEffect_rle_bad {i : Instr} {bytes : List Byte} (h : encode i = .stream .rle bytes) (d : Decoder) :
    (tokenEffect i d).bad = d.bad := by
  cases i <;> cases h <;> rfl

/-- The round at `p` fails exactly on a marker with fewer than two bytes after it. -/
theorem Decoder.tokenStep_rle_bad_iff {x : List Byte} {d : Decoder} (ha : d.active x) :
    (d.tokenStep .rle x).bad = true ↔ x[d.pos]? = some 0xFF ∧ x.length ≤ d.pos + 2 := by
  obtain ⟨hb, hp⟩ := ha
  have hx := List.drop_eq_getElem_cons hp
  have htrunc : Truncated .rle (x.drop d.pos) ↔ x[d.pos]? = some 0xFF ∧ x.length ≤ d.pos + 2 := by
    rw [hx, List.getElem?_eq_getElem hp, Option.some.injEq, Truncated, List.length_drop]
    exact and_congr_right fun _ => by omega
  rw [← htrunc]
  cases hi : decodeToken .rle (x.drop d.pos) with
  | error e =>
    rw [Decoder.tokenStep_error hi, hx]
    exact iff_of_true rfl ((decodeToken_error_iff .rle _ _).1 ⟨e, hx ▸ hi⟩)
  | ok p =>
    obtain ⟨i, rest⟩ := p
    obtain ⟨bytes, -, henc, -⟩ := decodeToken_ok hi
    rw [Decoder.tokenStep_ok hi, tokenEffect_rle_bad henc, hb]
    refine iff_of_false nofun fun ht => ?_
    obtain ⟨e, he⟩ := decodeToken_truncated ht
    exact absurd (hi.symm.trans he) nofun

/-- Settles O16: the decode fails in a round, and a round fails on a cut-off run. -/
theorem rleDecodeFailsExactlyOnATruncatedRun : Obligations.RleDecodeFailsExactlyOnATruncatedRun := by
  intro x
  rw [rleDec, Decoder.finish, Decoder.result_malformed_iff, Decoder.run_bad_iff rfl]
  refine exists_congr fun n => ⟨fun ⟨ha, hround⟩ => ?_, fun ⟨hb, hmarker, hend⟩ => ?_⟩
  · exact ⟨ha.1, (Decoder.tokenStep_rle_bad_iff ha).1 hround⟩
  · obtain ⟨hp, -⟩ := List.getElem?_eq_some_iff.1 hmarker
    exact ⟨⟨hb, hp⟩, (Decoder.tokenStep_rle_bad_iff ⟨hb, hp⟩).2 ⟨hmarker, hend⟩⟩

/-! ## The length of a decoded output (R160, R192) -/

/-- A token puts out at most 85 bytes for each byte it is read from: 255 for a `Run` or a `Match` of 3. -/
theorem tokenEffect_length_le {i : Instr} {d : Decoder} (h : d.out.length ≤ 85 * d.pos) :
    (tokenEffect i d).out.length ≤ 85 * (tokenEffect i d).pos := by
  cases i with
  | rleLit v | wmLit v =>
    simp only [tokenEffect, rleLitEffect, wmLitEffect, List.length_append, List.length_singleton]
    omega
  | rleRun v c =>
    have := c.isLt
    simp only [tokenEffect, rleRunEffect, List.length_append, List.length_replicate]
    omega
  | wmMatch o l =>
    have := l.isLt
    simp only [tokenEffect, wmMatchEffect]
    split_ifs with hbad
    · exact h
    · obtain ⟨ho, hin⟩ := not_or.1 hbad
      have hpos : 1 ≤ o.toNat := by bv_omega
      obtain ⟨hlen, -⟩ := copyBack_spec o.toNat hpos l.toNat d.out (not_lt.1 hin)
      simp only [hlen]
      omega
  | _ => exact h

theorem Decoder.tokenStep_length_le (c : Codec) (x : List Byte) {d : Decoder} (h : d.out.length ≤ 85 * d.pos) :
    (d.tokenStep c x).out.length ≤ 85 * (d.tokenStep c x).pos := by
  unfold Decoder.tokenStep
  split
  · exact tokenEffect_length_le h
  · exact h

theorem Decoder.tokenStep_pos_le {c : Codec} {x : List Byte} {d : Decoder} (ha : d.active x) :
    (d.tokenStep c x).pos ≤ x.length := by
  rcases Decoder.tokenStep_cases c x d ha with hraise | ⟨-, -, hle⟩
  · rw [hraise]
    exact ha.2.le
  · exact hle

/-- Settles O55: the bound holds of every position the loop reaches, and none is beyond the stream. -/
theorem decodedLengthIsBounded : Obligations.DecodedLengthIsBounded := by
  intro c x y h
  have hend := Decoder.run_induction (c := c) (x := x) (P := fun d => d.out.length ≤ 85 * d.pos ∧ d.pos ≤ x.length)
    (fun d ha ⟨hout, _⟩ => ⟨Decoder.tokenStep_length_le c x hout, Decoder.tokenStep_pos_le ha⟩) x.length
    (d := Decoder.fresh) ⟨Nat.zero_le _, Nat.zero_le _⟩
  obtain ⟨hout, hpos⟩ := hend
  obtain ⟨-, rfl⟩ := Decoder.result_bytes h
  exact hout.trans (Nat.mul_le_mul_left 85 hpos)

/-! ## The two commands (R163, R164) -/

theorem checkedResult_legal {b : Build} {n : Nat} (h : n ≤ b.ibufSize) (r : Result) :
    checkedResult b n r = fitResult b r := if_neg (not_lt.2 h)

/-- An error that loses OBUF (R132), as the statements about commands say it. -/
theorem exec_failedLosingOutput {s : State} {i : Instr} {e : CmdError}
    (h : commandResult s.build s.operation i = some (.error e)) (he : e.losesOutput = true) :
    ∃ t, exec i s = .next t ∧ FailedLosingOutput s e t :=
  ⟨_, exec_of_commandResult h, State.takeError_losing s e he⟩

/-- A command with an output for a result delivers it where it fits. -/
theorem exec_delivered {s : State} {i : Instr} {y : List Byte}
    (h : commandResult s.build s.operation i = some (fitResult s.build (.bytes y)))
    (hfit : y.length ≤ s.build.obufSize) : ∃ t, exec i s = .next t ∧ Delivered s y t := by
  rw [fitResult_bytes, if_pos hfit] at h
  exact ⟨_, exec_of_commandResult h, State.commitBytes_delivered s y⟩

/-- A command with an output for a result overflows where it does not fit. -/
theorem exec_overflows {s : State} {i : Instr} {y : List Byte}
    (h : commandResult s.build s.operation i = some (fitResult s.build (.bytes y)))
    (hlong : s.build.obufSize < y.length) : ∃ t, exec i s = .next t ∧ FailedLosingOutput s .outputOverflow t := by
  rw [fitResult_bytes, if_neg (not_le.2 hlong)] at h
  exact exec_failedLosingOutput h rfl

/-- Settles O18: the command's result is the encoding, on a legal length fitted into OBUF alone. -/
theorem rleEncDeliversTheEncoding : Obligations.RleEncDeliversTheEncoding := by
  rintro s _ hlen rfl
  have hresult : commandResult s.build s.operation .rleEnc =
      some (fitResult s.build (.bytes (Reference.rleEnc s.operation.cfg.ffesc s.operation.x))) := by
    rw [commandResult, checkedResult_legal hlen, Reference.rleEnc_eq]
  exact ⟨exec_delivered hresult, exec_overflows hresult⟩

/-- On its run, the decoder of an `RLE.DEC` on a legal length ends in the pseudocode's value. -/
theorem commandResult_rleDec {s : State} (hlen : s.operation.n.toNat ≤ s.build.ibufSize)
    (hrun : s.operation.decoder.OnRun .rle s.operation.x) :
    commandResult s.build s.operation .rleDec =
      some (fitResult s.build (Reference.ofDecoded (Reference.rleDec s.operation.x))) := by
  rw [commandResult, checkedResult_legal hlen, Decoder.finish_onRun hrun, ← rleDec_eq, rleDec]

/-- Settles O19: the three cases of the pseudocode's value. -/
theorem rleDecDeliversTheDecoding : Obligations.RleDecDeliversTheDecoding := by
  intro s hlen hrun
  have hresult := commandResult_rleDec hlen hrun
  refine ⟨fun y hy => ?_, fun y hy => ?_, fun hnone => ?_⟩
  · rw [hy] at hresult
    exact exec_delivered hresult
  · rw [hy] at hresult
    exact exec_overflows hresult
  · rw [hnone] at hresult
    exact exec_failedLosingOutput hresult rfl

end Sys2Proof.Machine
end

section
/-! SUPPORT. The Window-Match family: the tokens on the command in flight, where a decode fails, how far a candidate
extends and which one the search takes, the decoder on the encoder's own output, and the two Window-Match commands. -/

namespace Sys2Proof.Machine

/-! ## Tokens on the command in flight (R192, R193) -/

theorem wmMatchEffect_outside {o : Byte} {d : Decoder} (h : o = 0 ∨ d.out.length < o.toNat) (l : Byte) :
    wmMatchEffect o l d = d.raise := if_pos h

theorem wmMatchEffect_inside {o : Byte} {d : Decoder} (h1 : 1 ≤ o.toNat) (hin : o.toNat ≤ d.out.length) (l : Byte) :
    wmMatchEffect o l d = { d with pos := d.pos + 3, out := copyBack o.toNat l.toNat d.out } :=
  if_neg (not_or.2 ⟨by rintro rfl; exact absurd h1 (by decide), not_lt.2 hin⟩)

theorem exec_wmMatch {s : State} {f : Flight} (h : s.flight = some f) (o l : Byte) :
    exec (.wmMatch o l) s = .next { s with flight := some { f with decoder := wmMatchEffect o l f.decoder } } :=
  congrArg Host.Outcome.next (State.onDecoder_inFlight h (wmMatchEffect o l))

/-- Settles O13, by what a copy leaves at each index. -/
theorem wmMatchCopiesByteByByte : Obligations.WmMatchCopiesByteByByte := by
  intro s f o l hf h1 hin
  refine ⟨copyBack o.toNat l.toNat f.decoder.out, ?_, copyBack_spec o.toNat h1 l.toNat f.decoder.out hin⟩
  rw [exec_wmMatch hf, wmMatchEffect_inside h1 hin]

/-- Settles O14: the effect of such a match is to raise. -/
theorem wmMatchOutsideTheOutputIsMalformed : Obligations.WmMatchOutsideTheOutputIsMalformed := by
  intro s f o l hf hout
  rw [exec_wmMatch hf, wmMatchEffect_outside hout, Decoder.raise]

/-- Settles O15, as the literals. -/
theorem wmBadMarkerIsMalformed : Obligations.WmBadMarkerIsMalformed := by
  intro s f m hf
  exact congrArg Host.Outcome.next (State.onDecoder_inFlight hf wmBadMarkerEffect)

/-! ## Where a Window-Match decode fails (R193) -/

/-- The decoder stands on one of the malformed tokens of R193, in the order of R194. -/
def Decoder.OnMalformedWm (x : List Byte) (d : Decoder) : Prop :=
  ∃ m, x[d.pos]? = some m ∧
    ((m ≠ 0x00 ∧ m ≠ 0x01) ∨ (m = 0x00 ∧ x.length ≤ d.pos + 1) ∨ (m = 0x01 ∧ x.length ≤ d.pos + 2) ∨
      (m = 0x01 ∧ ∃ o, x[d.pos + 1]? = some o ∧ (o = 0 ∨ d.out.length < o.toNat)))

theorem wmMatchEffect_bad_iff {d : Decoder} (hb : d.bad = false) (o l : Byte) :
    (wmMatchEffect o l d).bad = true ↔ o = 0 ∨ d.out.length < o.toNat := by
  by_cases h : o = 0 ∨ d.out.length < o.toNat
  · rw [wmMatchEffect_outside h]
    exact iff_of_true rfl h
  · rw [wmMatchEffect, if_neg h]
    exact iff_of_false (fun hbad => Bool.noConfusion (hb.symm.trans hbad)) h

/-- R193 in terms of the stream that is left: its marker `m` and the bytes `t` after it. -/
theorem Decoder.onMalformedWm_iff {x t : List Byte} {d : Decoder} {m : Byte} (h : x.drop d.pos = m :: t) :
    d.OnMalformedWm x ↔ (m ≠ 0x00 ∧ m ≠ 0x01) ∨ Truncated .wm (m :: t) ∨
      (m = 0x01 ∧ ∃ o, t[0]? = some o ∧ (o = 0 ∨ d.out.length < o.toNat)) := by
  have hm : x[d.pos]? = some m := by
    rw [← Nat.add_zero d.pos, ← List.getElem?_drop, h, List.getElem?_cons_zero]
  have ho : x[d.pos + 1]? = t[0]? := by rw [← List.getElem?_drop, h, List.getElem?_cons_succ]
  have hlen : x.length = d.pos + (t.length + 1) := by
    have := congrArg List.length h
    rw [List.length_drop, List.length_cons] at this
    omega
  have hlit : x.length ≤ d.pos + 1 ↔ t.length < 1 := by omega
  have hmatch : x.length ≤ d.pos + 2 ↔ t.length < 2 := by omega
  simp only [OnMalformedWm, hm, ho, hlit, hmatch, Option.some.injEq, exists_eq_left', Truncated, or_assoc]

/-- The round fails on a token that is cut off, and on one whose effect raises: a bad marker, or a match outside the
output. -/
theorem Decoder.tokenStep_wm_bad_iff {x : List Byte} {d : Decoder} (ha : d.active x) :
    (d.tokenStep .wm x).bad = true ↔ d.OnMalformedWm x := by
  obtain ⟨hb, hp⟩ := ha
  obtain ⟨m, t, hx⟩ : ∃ m t, x.drop d.pos = m :: t := ⟨_, _, List.drop_eq_getElem_cons hp⟩
  rw [Decoder.onMalformedWm_iff hx]
  cases hi : decodeToken .wm (x.drop d.pos) with
  | error e =>
    rw [Decoder.tokenStep_error hi]
    exact iff_of_true rfl (.inr (.inl ((decodeToken_error_iff .wm m t).1 ⟨e, hx ▸ hi⟩)))
  | ok p =>
    obtain ⟨i, rest⟩ := p
    obtain ⟨bytes, hwf, henc, hbytes⟩ := decodeToken_ok hi
    rw [Decoder.tokenStep_ok hi]
    rw [hx] at hbytes
    cases i with
    | wmLit v =>
      cases henc
      cases hbytes
      simp [tokenEffect, wmLitEffect, hb, Truncated]
    | wmMatch o l =>
      cases henc
      cases hbytes
      simp [tokenEffect, wmMatchEffect_bad_iff hb, Truncated]
    | wmBadMarker m' =>
      cases henc
      cases hbytes
      exact iff_of_true rfl (.inl ((badMarker_iff m).1 (of_decide_eq_true hwf)))
    | _ => cases henc

/-- Settles O17: the decode fails in a round, and a round fails on a malformed token. -/
theorem wmDecodeFailsExactlyOnAMalformedToken : Obligations.WmDecodeFailsExactlyOnAMalformedToken := by
  refine ⟨fun x => ?_, fun x n d hbad => ?_⟩
  · rw [wmDec, Decoder.finish, Decoder.result_malformed_iff, Decoder.run_bad_iff rfl]
    constructor
    · rintro ⟨n, ha, hround⟩
      obtain ⟨m, hmarker, hmalformed⟩ := (Decoder.tokenStep_wm_bad_iff ha).1 hround
      exact ⟨n, _, m, rfl, ha.1, hmarker, hmalformed⟩
    · rintro ⟨n, _, m, rfl, hb, hmarker, hmalformed⟩
      have ha : (Decoder.run .wm x n Decoder.fresh).active x := ⟨hb, (List.getElem?_eq_some_iff.1 hmarker).1⟩
      exact ⟨n, ha, (Decoder.tokenStep_wm_bad_iff ha).2 ⟨m, hmarker, hmalformed⟩⟩
  · exact Decoder.run_inactive .wm x n fun ha => Bool.noConfusion (ha.1.symm.trans hbad)

/-! ## The extension of a candidate (R182, R183) -/

/-- The candidate at window position `i` may take its byte `k`: the input goes on, the bytes agree, and without the
overlapping search the byte lies before `pos`. -/
def Extends (ov : Bool) (x : List Byte) (i pos k : Nat) : Prop :=
  pos + k < x.length ∧ x[i + k]? = x[pos + k]? ∧ (ov = true ∨ i + k < pos)

section
variable {ov : Bool} {x : List Byte} {i pos : Nat}

theorem wmExtend_extends {k : Nat} (h : Extends ov x i pos k) (fuel : Nat) :
    wmExtend ov x i pos (fuel + 1) k = wmExtend ov x i pos fuel (k + 1) := if_pos h

theorem wmExtend_stops {k : Nat} (h : ¬ Extends ov x i pos k) (fuel : Nat) :
    wmExtend ov x i pos (fuel + 1) k = k := if_neg h

/-- The candidate takes bytes as long as it may, and stops at the cap or at the first byte that it may not take. -/
theorem wmExtend_spec (fuel k : Nat) :
    wmExtend ov x i pos fuel k ≤ k + fuel ∧
      (∀ j, k ≤ j → j < wmExtend ov x i pos fuel k → Extends ov x i pos j) ∧
      (wmExtend ov x i pos fuel k = k + fuel ∨ ¬ Extends ov x i pos (wmExtend ov x i pos fuel k)) := by
  induction fuel generalizing k with
  | zero => exact ⟨le_rfl, fun j hkj hj => absurd hj (not_lt.2 hkj), .inl rfl⟩
  | succ fuel ih =>
    by_cases h : Extends ov x i pos k
    · rw [wmExtend_extends h, show k + (fuel + 1) = k + 1 + fuel by omega]
      obtain ⟨hcap, htaken, hstop⟩ := ih (k + 1)
      refine ⟨hcap, fun j hkj hj => ?_, hstop⟩
      obtain rfl | hlater := hkj.eq_or_lt
      · exact h
      · exact htaken j hlater hj
    · rw [wmExtend_stops h]
      exact ⟨Nat.le_add_right k _, fun j hkj hj => absurd hj (not_lt.2 hkj), .inr h⟩

theorem wmMatchLen_le : wmMatchLen ov x i pos ≤ 255 :=
  (wmExtend_spec 255 0).1

theorem extends_of_lt_wmMatchLen {j : Nat} (h : j < wmMatchLen ov x i pos) : Extends ov x i pos j :=
  (wmExtend_spec 255 0).2.1 j (Nat.zero_le j) h

theorem wmMatchLen_stop : wmMatchLen ov x i pos = 255 ∨ ¬ Extends ov x i pos (wmMatchLen ov x i pos) :=
  (wmExtend_spec 255 0).2.2

/-- A candidate stays inside the input. -/
theorem add_wmMatchLen_le (h : pos ≤ x.length) : pos + wmMatchLen ov x i pos ≤ x.length := by
  cases hk : wmMatchLen ov x i pos with
  | zero => exact h
  | succ k => exact (extends_of_lt_wmMatchLen (by omega : k < wmMatchLen ov x i pos)).1

/-- Without the overlapping search a candidate stays before the position. -/
theorem wmMatchLen_before (h : i < pos) (hov : ov = false) : i + wmMatchLen ov x i pos ≤ pos := by
  cases hk : wmMatchLen ov x i pos with
  | zero => exact h.le
  | succ k =>
    obtain ⟨-, -, hlast⟩ := extends_of_lt_wmMatchLen (by omega : k < wmMatchLen ov x i pos)
    exact hlast.resolve_left (by simp [hov])

end

/-- Settles O56: the candidate's length is where its extension stops, and each condition of R182 and R183 is one of
`Extends` or the cap. -/
theorem candidateIsMaximal : Obligations.CandidateIsMaximal := by
  rintro ov x i pos _ hi hpos rfl
  have hin := add_wmMatchLen_le (ov := ov) (i := i) hpos
  have hbefore := wmMatchLen_before (ov := ov) (x := x) hi
  refine ⟨wmMatchLen_le, hin, fun j hj => (extends_of_lt_wmMatchLen hj).2.1, hbefore, ?_⟩
  obtain hcap | hstop := wmMatchLen_stop (ov := ov) (x := x) (i := i) (pos := pos)
  · exact .inl hcap
  · by_contra hall
    obtain ⟨-, hend, hagree, hover⟩ := by simpa only [not_or] using hall
    refine hstop ⟨hin.lt_of_ne hend, not_not.1 hagree, ?_⟩
    cases ov with
    | true => exact .inl rfl
    | false => exact .inr ((hbefore rfl).lt_of_ne fun h => hover ⟨rfl, h⟩)

/-! ## The best candidate of a window (R181, R184) -/

/-- What the search holds after the window positions from `start` up to `stop`: no candidate there is longer, and it is
empty or the oldest of that length. -/
structure Candidate.BestOf (ov : Bool) (x : List Byte) (pos start stop : Nat) (best : Candidate) : Prop where
  longest : ∀ i, start ≤ i → i < stop → wmMatchLen ov x i pos ≤ best.len
  oldest : (best.len = 0 ∧ best.off = 0) ∨
    ∃ i, start ≤ i ∧ i < stop ∧ best.off = pos - i ∧ wmMatchLen ov x i pos = best.len ∧ 1 ≤ best.len ∧
      ∀ j, start ≤ j → j < i → wmMatchLen ov x j pos < best.len

namespace Candidate.BestOf

variable {ov : Bool} {x : List Byte} {pos start stop : Nat} {best : Candidate}

/-- One more position: it replaces the best exactly when it is strictly longer. -/
theorem step (h : BestOf ov x pos start stop best) (hstart : start ≤ stop) :
    BestOf ov x pos start (stop + 1) (wmBetter ov x pos best stop) := by
  unfold wmBetter
  split_ifs with hlonger
  · have hshorter : ∀ i, start ≤ i → i < stop → wmMatchLen ov x i pos < wmMatchLen ov x stop pos :=
      fun i hi hlt => (h.longest i hi hlt).trans_lt hlonger
    refine ⟨fun i hi hlt => ?_, .inr ⟨stop, hstart, stop.lt_succ_self, rfl, rfl, Nat.one_le_of_lt hlonger, hshorter⟩⟩
    obtain hlt | rfl := Nat.lt_succ_iff_lt_or_eq.1 hlt
    · exact (hshorter i hi hlt).le
    · exact le_rfl
  · refine ⟨fun i hi hlt => ?_, h.oldest.imp_right fun ⟨i, hi, hlt, hbest⟩ =>
      ⟨i, hi, hlt.trans stop.lt_succ_self, hbest⟩⟩
    obtain hlt | rfl := Nat.lt_succ_iff_lt_or_eq.1 hlt
    · exact h.longest i hi hlt
    · exact not_lt.1 hlonger

/-- The scan of the next `n` positions. -/
theorem scan (h : BestOf ov x pos start stop best) (hstart : start ≤ stop) (n : Nat) :
    BestOf ov x pos start (stop + n) ((List.range' stop n).foldl (wmBetter ov x pos) best) := by
  induction n generalizing stop best with
  | zero => exact h
  | succ n ih =>
    rw [List.range'_succ, List.foldl_cons, show stop + (n + 1) = stop + 1 + n by omega]
    exact ih (h.step hstart) (by omega)

end Candidate.BestOf

theorem wmSearch_bestOf (ov : Bool) (w : Nat) (x : List Byte) (pos : Nat) :
    (wmSearch ov w x pos).BestOf ov x pos (pos - w) pos := by
  have hempty : Candidate.BestOf ov x pos (pos - w) (pos - w) { len := 0, off := 0 } :=
    ⟨fun i hi hlt => absurd hlt (not_lt.2 hi), .inl ⟨rfl, rfl⟩⟩
  have hwindow := hempty.scan le_rfl (pos - (pos - w))
  rwa [show pos - w + (pos - (pos - w)) = pos by omega] at hwindow

/-- Settles O57: what the scan of the whole window holds. -/
theorem searchPrefersTheOldestLongest : Obligations.SearchPrefersTheOldestLongest := fun ov w x pos =>
  ⟨(wmSearch_bestOf ov w x pos).longest, (wmSearch_bestOf ov w x pos).oldest⟩

/-! ## The ranges of the best candidate (R187) -/

section
variable {ov : Bool} {w : Nat} {x : List Byte} {pos : Nat}

/-- A best candidate that is not empty is the candidate of a window position. -/
theorem wmSearch_found (h : 1 ≤ (wmSearch ov w x pos).len) :
    ∃ i, pos - w ≤ i ∧ i < pos ∧ (wmSearch ov w x pos).off = pos - i ∧
      (wmSearch ov w x pos).len = wmMatchLen ov x i pos := by
  obtain ⟨hlen, -⟩ | ⟨i, hi, hlt, hoff, hlen, -⟩ := (wmSearch_bestOf ov w x pos).oldest
  · omega
  · exact ⟨i, hi, hlt, hoff, hlen.symm⟩

/-- The offset points into the window, and so into the bytes before `pos`. -/
theorem wmSearch_off_bounds (h : 1 ≤ (wmSearch ov w x pos).len) :
    1 ≤ (wmSearch ov w x pos).off ∧ (wmSearch ov w x pos).off ≤ w ∧ (wmSearch ov w x pos).off ≤ pos := by
  obtain ⟨i, hi, hlt, hoff, -⟩ := wmSearch_found h
  omega

theorem wmSearch_len_le : (wmSearch ov w x pos).len ≤ 255 := by
  by_contra hlong
  obtain ⟨i, -, -, -, hlen⟩ := wmSearch_found (ov := ov) (w := w) (x := x) (pos := pos) (by omega)
  exact hlong (hlen ▸ wmMatchLen_le)

theorem add_wmSearch_len_le (hpos : pos ≤ x.length) : pos + (wmSearch ov w x pos).len ≤ x.length := by
  by_cases h : 1 ≤ (wmSearch ov w x pos).len
  · obtain ⟨i, -, -, -, hlen⟩ := wmSearch_found h
    exact hlen ▸ add_wmMatchLen_le hpos
  · omega

/-- Without the overlapping search a match is no longer than its offset. -/
theorem wmSearch_len_le_off (hov : ov = false) : (wmSearch ov w x pos).len ≤ (wmSearch ov w x pos).off := by
  by_cases h : 1 ≤ (wmSearch ov w x pos).len
  · obtain ⟨i, -, hlt, hoff, hlen⟩ := wmSearch_found h
    have := wmMatchLen_before (x := x) hlt hov
    omega
  · omega

/-- With W < M and without the overlapping search, or with W = 0, no candidate reaches M. -/
theorem wmSearch_len_lt {m : Nat} (h : w < m) (hw : ov = false ∨ w = 0) : (wmSearch ov w x pos).len < m := by
  by_cases hone : 1 ≤ (wmSearch ov w x pos).len
  · obtain ⟨hpos, hoff, -⟩ := wmSearch_off_bounds hone
    obtain hov | hzero := hw
    · exact ((wmSearch_len_le_off hov).trans hoff).trans_lt h
    · omega
  · omega

end

/-! ## One token of the encoder (R180, R185, R186) -/

section
variable {ov : Bool} {w m : Nat} {x : List Byte} {pos : Nat}

theorem wmEncFrom_end (h : x.length ≤ pos) (fuel : Nat) : wmEncFrom ov w m x fuel pos = [] := by
  cases fuel with
  | zero => rfl
  | succ fuel => simp only [wmEncFrom, List.getElem?_eq_none h]

theorem wmEncFrom_match (hpos : pos < x.length) (h : m ≤ (wmSearch ov w x pos).len) (fuel : Nat) :
    wmEncFrom ov w m x (fuel + 1) pos =
      0x01 :: BitVec.ofNat 8 (wmSearch ov w x pos).off :: BitVec.ofNat 8 (wmSearch ov w x pos).len ::
        wmEncFrom ov w m x fuel (pos + (wmSearch ov w x pos).len) := by
  simp only [wmEncFrom, List.getElem?_eq_getElem hpos, if_pos h, List.cons_append, List.nil_append]

theorem wmEncFrom_lit (hpos : pos < x.length) (h : (wmSearch ov w x pos).len < m) (fuel : Nat) :
    wmEncFrom ov w m x (fuel + 1) pos = 0x00 :: x[pos] :: wmEncFrom ov w m x fuel (pos + 1) := by
  simp only [wmEncFrom, List.getElem?_eq_getElem hpos, if_neg (not_le.2 h), List.cons_append, List.nil_append]

end

/-- Where no candidate reaches M, every token is a literal. -/
theorem wmEncFrom_literals {ov : Bool} {w m : Nat} {x : List Byte} (h : ∀ pos, (wmSearch ov w x pos).len < m)
    (fuel pos : Nat) (hfuel : x.length ≤ pos + fuel) :
    wmEncFrom ov w m x fuel pos = (x.drop pos).flatMap fun b => [0x00, b] := by
  induction fuel generalizing pos with
  | zero => rw [List.drop_eq_nil_of_le (by omega)]; rfl
  | succ fuel ih =>
    by_cases hpos : pos < x.length
    · rw [wmEncFrom_lit hpos (h pos), ih (pos + 1) (by omega), List.drop_eq_getElem_cons hpos]
      rfl
    · rw [wmEncFrom_end (not_lt.1 hpos), List.drop_eq_nil_of_le (not_lt.1 hpos)]
      rfl

theorem wmEnc_literals {w m : Byte} {ov : Bool} (h : w.toNat < m.toNat) (hw : ov = false ∨ w.toNat = 0)
    (x : List Byte) : wmEnc w m ov x = x.flatMap fun b => [0x00, b] :=
  wmEncFrom_literals (fun _ => wmSearch_len_lt h hw) x.length 0 (by omega)

/-- A literal puts out two bytes for one, a match three for at least three. -/
theorem wmEncFrom_length_le {ov : Bool} {w m : Nat} {x : List Byte} (hm : 3 ≤ m) (fuel pos : Nat) :
    (wmEncFrom ov w m x fuel pos).length ≤ 2 * (x.length - pos) := by
  induction fuel generalizing pos with
  | zero => exact Nat.zero_le _
  | succ fuel ih =>
    by_cases hpos : pos < x.length
    · by_cases hmatch : m ≤ (wmSearch ov w x pos).len
      · have hrest := ih (pos + (wmSearch ov w x pos).len)
        have hin := add_wmSearch_len_le (ov := ov) (w := w) hpos.le
        rw [wmEncFrom_match hpos hmatch]
        simp only [List.length_cons]
        omega
      · have hrest := ih (pos + 1)
        rw [wmEncFrom_lit hpos (not_le.1 hmatch)]
        simp only [List.length_cons]
        omega
    · rw [wmEncFrom_end (not_lt.1 hpos)]
      exact Nat.zero_le _

/-- Settles O59: token by token, and by the empty window. -/
theorem wmEncodingLength : Obligations.WmEncodingLength :=
  ⟨fun x _ _ _ hm => wmEncFrom_length_le hm x.length 0,
    fun x _ _ hm => wmEnc_literals (Nat.lt_of_lt_of_le (by decide) hm) (.inr rfl) x⟩

/-! ## The decoder on the encoder's output (R195) -/

/-- A copy out of the first `pos` bytes of `x` gives the next `l` of them, where those agree with the ones copied; bytes
appended by the copy itself may be among these (R77). -/
theorem copyBack_take {x : List Byte} {l i pos : Nat} (hi : i < pos) (hin : pos + l ≤ x.length)
    (h : ∀ j, j < l → x[i + j]? = x[pos + j]?) : copyBack (pos - i) l (x.take pos) = x.take (pos + l) := by
  induction l generalizing i pos with
  | zero => rfl
  | succ l ih =>
    have hlen : (x.take pos).length = pos := List.length_take_of_le (by omega)
    have hbyte : (x.take pos)[pos - (pos - i)]? = x[pos]? := by
      rw [show pos - (pos - i) = i by omega, List.getElem?_take_of_lt hi]
      exact h 0 (Nat.succ_pos l)
    have hlater : ∀ j, j < l → x[i + 1 + j]? = x[pos + 1 + j]? := fun j hj => by
      rw [show i + 1 + j = i + (j + 1) by omega, show pos + 1 + j = pos + (j + 1) by omega]
      exact h (j + 1) (by omega)
    rw [copyBack, hlen, hbyte, ← List.take_add_one, show pos - i = pos + 1 - (i + 1) by omega,
      ih (by omega) (by omega) hlater, show pos + 1 + l = pos + (l + 1) by omega]

/-- The best candidate, copied as a match, puts out the bytes that the encoder goes past (R182, R192). -/
theorem copyBack_wmSearch {ov : Bool} {w : Nat} {x : List Byte} {pos : Nat} (hpos : pos ≤ x.length)
    (h : 1 ≤ (wmSearch ov w x pos).len) :
    copyBack (wmSearch ov w x pos).off (wmSearch ov w x pos).len (x.take pos) =
      x.take (pos + (wmSearch ov w x pos).len) := by
  have hin := add_wmSearch_len_le (ov := ov) (w := w) hpos
  obtain ⟨i, -, hi, hoff, hlen⟩ := wmSearch_found h
  rw [hoff]
  exact copyBack_take hi hin fun j hj => (extends_of_lt_wmMatchLen (hlen ▸ hj)).2.1

/-- A field of a match fits its byte (R189). -/
theorem toNat_ofNat_byte {n : Nat} (h : n ≤ 255) : (BitVec.ofNat 8 n).toNat = n := by
  rw [BitVec.toNat_ofNat, Nat.mod_eq_of_lt (Nat.lt_succ_of_le h)]

/-- The decoder stands where the encoder began the token of position `pos`: it has put out the input up to `pos`, and
the encoding of the rest is left. -/
structure Decoder.AtToken (w m : Byte) (ov : Bool) (x : List Byte) (pos : Nat) (d : Decoder) : Prop where
  good : d.bad = false
  inside : pos ≤ x.length
  out : d.out = x.take pos
  left : ∃ fuel, x.length ≤ pos + fuel ∧
    (wmEnc w m ov x).drop d.pos = wmEncFrom ov w.toNat m.toNat x fuel pos

namespace Decoder.AtToken

variable {w m : Byte} {ov : Bool} {x : List Byte} {pos : Nat} {d : Decoder}

theorem fresh : AtToken w m ov x 0 Decoder.fresh :=
  ⟨rfl, Nat.zero_le _, rfl, x.length, by omega, rfl⟩

theorem out_length (h : AtToken w m ov x pos d) : d.out.length = pos := by
  rw [h.out, List.length_take_of_le h.inside]

/-- At the end of the input nothing is left of the encoding. -/
theorem end_nil (h : AtToken w m ov x pos d) (hpos : x.length ≤ pos) : (wmEnc w m ov x).drop d.pos = [] := by
  obtain ⟨fuel, -, hleft⟩ := h.left
  rw [hleft, wmEncFrom_end hpos]

/-- Before the end there is at least one more round of the encoder's loop. -/
theorem left_succ (h : AtToken w m ov x pos d) (hpos : pos < x.length) :
    ∃ fuel, x.length ≤ pos + 1 + fuel ∧
      (wmEnc w m ov x).drop d.pos = wmEncFrom ov w.toNat m.toNat x (fuel + 1) pos := by
  obtain ⟨fuel, hfuel, hleft⟩ := h.left
  obtain ⟨fuel, rfl⟩ : ∃ n, fuel = n + 1 := ⟨fuel - 1, by omega⟩
  exact ⟨fuel, by omega, hleft⟩

/-- A literal is read back, and leads to the next position. -/
theorem reads_lit (h : AtToken w m ov x pos d) (hpos : pos < x.length)
    (hshort : (wmSearch ov w.toNat x pos).len < m.toNat) :
    (∃ rest, decodeToken .wm ((wmEnc w m ov x).drop d.pos) = .ok (.wmLit x[pos], rest)) ∧
      AtToken w m ov x (pos + 1) (tokenEffect (.wmLit x[pos]) d) := by
  obtain ⟨fuel, hfuel, hleft⟩ := h.left_succ hpos
  rw [wmEncFrom_lit hpos hshort] at hleft
  refine ⟨⟨_, hleft ▸ decodeWm_lit _ _⟩, h.good, hpos, ?_, fuel, hfuel, drop_succ_of_cons (drop_succ_of_cons hleft)⟩
  simp only [tokenEffect, wmLitEffect]
  rw [h.out, List.take_append_getElem hpos]

/-- A match is read back with its fields whole, and leads past the bytes it covers. -/
theorem reads_match (h : AtToken w m ov x pos d) (hm : 1 ≤ m.toNat) (hpos : pos < x.length)
    (hlong : m.toNat ≤ (wmSearch ov w.toNat x pos).len) :
    ∃ o l : Byte, o.toNat = (wmSearch ov w.toNat x pos).off ∧ l.toNat = (wmSearch ov w.toNat x pos).len ∧
      (∃ rest, decodeToken .wm ((wmEnc w m ov x).drop d.pos) = .ok (.wmMatch o l, rest)) ∧
      AtToken w m ov x (pos + l.toNat) (tokenEffect (.wmMatch o l) d) := by
  have hone := hm.trans hlong
  obtain ⟨hoff1, hoffw, hoffpos⟩ := wmSearch_off_bounds hone
  have ho : (BitVec.ofNat 8 (wmSearch ov w.toNat x pos).off).toNat = (wmSearch ov w.toNat x pos).off :=
    toNat_ofNat_byte (hoffw.trans (Nat.le_of_lt_succ w.isLt))
  have hl : (BitVec.ofNat 8 (wmSearch ov w.toNat x pos).len).toNat = (wmSearch ov w.toNat x pos).len :=
    toNat_ofNat_byte wmSearch_len_le
  obtain ⟨fuel, hfuel, hleft⟩ := h.left_succ hpos
  rw [wmEncFrom_match hpos hlong] at hleft
  refine ⟨_, _, ho, hl, ⟨_, hleft ▸ decodeWm_match _ _ _⟩, ?_⟩
  simp only [tokenEffect]
  rw [wmMatchEffect_inside (by rwa [ho]) (by rwa [ho, h.out_length]), hl]
  refine ⟨h.good, add_wmSearch_len_le hpos.le, ?_, fuel, by omega,
    drop_succ_of_cons (drop_succ_of_cons (drop_succ_of_cons hleft))⟩
  simp only [ho, h.out]
  exact copyBack_wmSearch hpos.le hone

/-- Before the end of the input a token is read back, a match or a literal, and leads to a later token. -/
theorem reads_token (h : AtToken w m ov x pos d) (hm : 1 ≤ m.toNat) (hpos : pos < x.length) :
    ∃ i rest pos', decodeToken .wm ((wmEnc w m ov x).drop d.pos) = .ok (i, rest) ∧
      AtToken w m ov x pos' (tokenEffect i d) := by
  by_cases hlong : m.toNat ≤ (wmSearch ov w.toNat x pos).len
  · obtain ⟨o, l, -, -, ⟨rest, hdec⟩, hnext⟩ := h.reads_match hm hpos hlong
    exact ⟨_, rest, _, hdec, hnext⟩
  · obtain ⟨⟨rest, hdec⟩, hnext⟩ := h.reads_lit hpos (not_le.1 hlong)
    exact ⟨_, rest, _, hdec, hnext⟩

theorem tokenStep (h : AtToken w m ov x pos d) (hm : 1 ≤ m.toNat) (ha : d.active (wmEnc w m ov x)) :
    ∃ pos', AtToken w m ov x pos' (d.tokenStep .wm (wmEnc w m ov x)) := by
  by_cases hpos : pos < x.length
  · obtain ⟨i, rest, pos', hdec, hnext⟩ := h.reads_token hm hpos
    exact ⟨pos', Decoder.tokenStep_ok hdec ▸ hnext⟩
  · exact absurd (h.end_nil (not_lt.1 hpos)) (drop_ne_nil ha.2)

/-- On the encoder's output the decoder always stands at a token of the encoder. -/
theorem run (w : Byte) {m : Byte} (hm : 1 ≤ m.toNat) (ov : Bool) (x : List Byte) (n : Nat) :
    ∃ pos, AtToken w m ov x pos (Decoder.run .wm (wmEnc w m ov x) n Decoder.fresh) :=
  Decoder.run_induction (P := fun d => ∃ pos, AtToken w m ov x pos d)
    (fun _ ha ⟨_, h⟩ => h.tokenStep hm ha) n ⟨0, fresh⟩

/-- With nothing of the encoding left, the whole input has been put out. -/
theorem out_of_not_active (h : AtToken w m ov x pos d) (hm : 1 ≤ m.toNat) (ha : ¬ d.active (wmEnc w m ov x)) :
    d.out = x := by
  have hend : (wmEnc w m ov x).drop d.pos = [] := List.drop_eq_nil_of_le (not_lt.1 fun hlt => ha ⟨h.good, hlt⟩)
  have hpos : x.length ≤ pos := by
    by_contra hpos
    obtain ⟨i, rest, -, hdec, -⟩ := h.reads_token hm (not_le.1 hpos)
    rw [hend, decodeToken_nil] at hdec
    cases hdec
  rw [h.out, List.take_of_length_le hpos]

end Decoder.AtToken

/-- Settles O52: the decoder ends at a token of the encoder with nothing left. -/
theorem wmRoundTrip : Obligations.WmRoundTrip := by
  intro x w m ov hm
  have hone : 1 ≤ m.toNat := by omega
  obtain ⟨pos, h⟩ := Decoder.AtToken.run w hone ov x (wmEnc w m ov x).length
  have hend := Decoder.run_not_active .wm (wmEnc w m ov x) (wmEnc w m ov x).length Decoder.fresh (by omega)
  rw [wmDec, Decoder.finish, Decoder.result, h.good, h.out_of_not_active hone hend]
  rfl

/-- Where the decoder finds a match on the encoder's output, it has put out the input up to the position whose best
candidate the match is (R187, R189). -/
theorem Decoder.AtToken.fields_of_match {w m o l : Byte} {ov : Bool} {x rest : List Byte} {pos : Nat} {d : Decoder}
    (h : AtToken w m ov x pos d) (hm : 1 ≤ m.toNat)
    (hdec : decodeToken .wm ((wmEnc w m ov x).drop d.pos) = .ok (.wmMatch o l, rest)) :
    o.toNat = (wmSearch ov w.toNat x pos).off ∧ l.toNat = (wmSearch ov w.toNat x pos).len ∧
      m.toNat ≤ (wmSearch ov w.toNat x pos).len := by
  by_cases hpos : pos < x.length
  · by_cases hlong : m.toNat ≤ (wmSearch ov w.toNat x pos).len
    · obtain ⟨o', l', ho, hl, ⟨rest', hdec'⟩, -⟩ := h.reads_match hm hpos hlong
      cases hdec.symm.trans hdec'
      exact ⟨ho, hl, hlong⟩
    · obtain ⟨⟨rest', hdec'⟩, -⟩ := h.reads_lit hpos (not_le.1 hlong)
      cases hdec.symm.trans hdec'
  · rw [h.end_nil (not_lt.1 hpos), decodeToken_nil] at hdec
    cases hdec

/-- R187, for a best candidate that reaches M. -/
theorem wmSearch_ranges {ov : Bool} {w m : Nat} {x : List Byte} {pos : Nat} (hm : 1 ≤ m) (hpos : pos ≤ x.length)
    (h : m ≤ (wmSearch ov w x pos).len) :
    1 ≤ (wmSearch ov w x pos).off ∧ (wmSearch ov w x pos).off ≤ w ∧
      (wmSearch ov w x pos).len ≤ min 255 (x.length - pos) ∧
      (ov = false → (wmSearch ov w x pos).len ≤ (wmSearch ov w x pos).off ∧ m ≤ w) := by
  obtain ⟨hoff1, hoffw, -⟩ := wmSearch_off_bounds (hm.trans h)
  have hin := add_wmSearch_len_le (ov := ov) (w := w) hpos
  refine ⟨hoff1, hoffw, le_min wmSearch_len_le (by omega), fun hov => ?_⟩
  have hlen := wmSearch_len_le_off (w := w) (x := x) (pos := pos) hov
  exact ⟨hlen, h.trans (hlen.trans hoffw)⟩

/-- Settles O58: the ranges of the best candidate, which every match in the output is, and the literals of W < M. -/
theorem encoderMatchRanges : Obligations.EncoderMatchRanges := by
  refine ⟨fun ov w m x pos hm hpos h => wmSearch_ranges (by omega) hpos h, ?_,
    fun w m x h => wmEnc_literals h (.inl rfl) x⟩
  rintro ov w m o l x rest n _ _ hm rfl rfl hdec
  have hone : 1 ≤ m.toNat := by omega
  obtain ⟨pos, h⟩ := Decoder.AtToken.run w hone ov x n
  obtain ⟨ho, hl, hlong⟩ := h.fields_of_match hone hdec
  obtain ⟨hoff1, hoffw, hlen, hover⟩ := wmSearch_ranges hone h.inside hlong
  rw [h.out_length, ho, hl]
  exact ⟨h.out, rfl, rfl, hoff1, hoffw, hlong, hlen, hover⟩

/-! ## The two commands (R197, R198) -/

/-- Settles O20, as `RLE.ENC`. -/
theorem wmEncDeliversTheEncoding : Obligations.WmEncDeliversTheEncoding := by
  rintro s _ hlen rfl
  have hresult : commandResult s.build s.operation .wmEnc = some (fitResult s.build (.bytes
      (Reference.wmEnc s.operation.cfg.window s.operation.cfg.minMatch s.build.wmOverlap s.operation.x))) := by
    rw [commandResult, checkedResult_legal hlen, Reference.wmEnc_eq]
  exact ⟨exec_delivered hresult, exec_overflows hresult⟩

/-- A command with a decoder's value for a result, as the statements about commands say it: delivered, overflown or
malformed. -/
theorem exec_ofDecoded {s : State} {i : Instr} {r : Option (List Byte)}
    (h : commandResult s.build s.operation i = some (fitResult s.build (Reference.ofDecoded r))) :
    (∀ y, r = some y → y.length ≤ s.build.obufSize → ∃ t, exec i s = .next t ∧ Delivered s y t) ∧
      (∀ y, r = some y → s.build.obufSize < y.length →
        ∃ t, exec i s = .next t ∧ FailedLosingOutput s .outputOverflow t) ∧
      (r = none → ∃ t, exec i s = .next t ∧ FailedLosingOutput s .malformedStream t) := by
  refine ⟨?_, ?_, ?_⟩
  · rintro y rfl
    exact exec_delivered h
  · rintro y rfl
    exact exec_overflows h
  · rintro rfl
    exact exec_failedLosingOutput h rfl

/-- Settles O21: on its run the decoder ends in the pseudocode's value, on a legal length fitted into OBUF alone. -/
theorem wmDecDeliversTheDecoding : Obligations.WmDecDeliversTheDecoding := by
  intro s hlen hrun
  have hresult : commandResult s.build s.operation .wmDec =
      some (fitResult s.build (Reference.ofDecoded (Reference.wmDec s.operation.x))) := by
    rw [commandResult, checkedResult_legal hlen, Decoder.finish_onRun hrun, ← wmDec_eq, wmDec]
  exact exec_ofDecoded hresult

end Sys2Proof.Machine
end

section
/-! SUPPORT. The selector family: the choice by the repeat count of R222, the exact threshold, and the command `SEL`. -/

namespace Sys2Proof.Machine

/-! ## The choice (R220 to R223) -/

/-- R220 with R221: the choice by the number of positions of R222. -/
theorem select_eq (x : List Byte) :
    select x = if x = [] ∨ 10 * Reference.repeats x > 3 * x.length then .rle else .wm := by
  rw [select, repeatCount_eq, ite_or]

theorem select_eq_rle_iff {x : List Byte} (h : x ≠ []) :
    select x = .rle ↔ 3 * x.length < 10 * Reference.repeats x := by
  simp [select_eq, h]

/-- The first position of an input repeats none. -/
theorem repeats_le (x : List Byte) : Reference.repeats x ≤ x.length - 1 :=
  (List.length_filter_le _ _).trans_eq List.length_range'

/-- The comparison of the ratios without a division: cross-multiplication by the two denominators. -/
theorem threshold_lt_ratio_iff {n : ℕ} (h : 0 < n) (r : ℕ) : (3 : ℚ) / 10 < (r : ℚ) / (n : ℚ) ↔ 3 * n < 10 * r := by
  have hn : (0 : ℚ) < n := Nat.cast_pos.2 h
  rw [div_lt_div_iff₀ (by norm_num) hn, mul_comm (r : ℚ)]
  exact_mod_cast Iff.rfl

/-- Settles O60: the model's integer comparison is that of the ratios; `r < n ≤ 65536` bounds both products. -/
theorem selectorThresholdIsExact : Obligations.SelectorThresholdIsExact := by
  intro x hx
  have hpos : 0 < x.length := List.length_pos_of_ne_nil hx
  have hrepeats := repeats_le x
  refine ⟨?_, select_eq_rle_iff hx, fun hlen => by omega⟩
  rw [threshold_lt_ratio_iff hpos]
  exact select_eq_rle_iff hx

/-! ## The command (R225) -/

/-- Settles O22: on a legal length the command's result is the choice, and its commit is R131's. -/
theorem selRecordsTheChoice : Obligations.SelRecordsTheChoice := by
  intro s alg hsel hlen
  have hresult : commandResult s.build s.operation (.sel alg) = some (.choice (select s.operation.x)) := by
    rw [commandResult_sel hsel, checkedResult_legal hlen, fitResult]
  rw [exec_of_commandResult hresult, State.commit_choice, State.commitChoice, select_eq]

end Sys2Proof.Machine
end

section
/-! SUPPORT. The exceptions family: the level of `irq` after each operation that changes DONE or CONFIG.IE. -/

namespace Sys2Proof.Machine

/-! ## The interrupt output (R250, R251) -/

namespace State

/-- R250: `irq` is the conjunction of its two register bits. -/
theorem irq_iff (s : State) : s.irq = true ↔ s.done = true ∧ s.config.ie = true :=
  Bool.and_eq_true_iff

theorem irq_of_done {s : State} (h : s.done = true) : s.irq = s.config.ie := by
  rw [irq, h, Bool.true_and]

theorem irq_of_not_done {s : State} (h : s.done = false) : s.irq = false := by
  rw [irq, h, Bool.false_and]

@[simp] theorem respond_irq (r : Response) (s : State) : (s.respond r).irq = s.irq := rfl

/-- R128: each of the three kinds of commit sets DONE. -/
@[simp] theorem commit_done (r : Result) (s : State) : (s.commit r).done = true := by
  cases r with
  | bytes y => exact commitBytes_done y s
  | choice c => exact commitChoice_done c s
  | error e => exact takeError_done e s

/-- No commit writes CONFIG. -/
@[simp] theorem commit_config (r : Result) (s : State) : (s.commit r).config = s.config := by
  cases r with
  | bytes y => exact commitBytes_config y s
  | choice c => exact commitChoice_config c s
  | error e => exact takeError_config e s

theorem commit_irq (r : Result) (s : State) : (s.commit r).irq = s.config.ie := by
  rw [irq_of_done (commit_done r s), commit_config]

/-- R38: a STATUS write can only lower `irq`, and does so by its bit 1. -/
theorem writeReg_status_irq (v : Word) (s : State) : (s.writeReg .status v).irq = (s.irq && !v.getLsbD 1) :=
  Bool.and_right_comm _ _ _

/-- R32: an idle core takes IE from bit 17 of a CONFIG write, which leaves DONE. -/
theorem writeReg_config_irq {s : State} (h : s.flight = none) (v : Word) :
    (s.writeReg .config v).irq = (s.done && v.getLsbD 17) := by
  rw [writeReg_config_idle h, irq, ConfigReg.ofWord]

end State

/-- Settles O45: `irq` is DONE AND IE, so a rise needs only the value of the bit that the operation leaves, and a fall
only the bit that it clears. -/
theorem interruptRisesAtCommitAndFalls : Obligations.InterruptRisesAtCommitAndFalls := by
  intro s w r
  refine ⟨s.irq_iff, ?hostSetsIe, s.commit_irq r, State.irq_of_not_done (s.accept_done w),
    State.irq_of_not_done s.resetStep_done, ?statusClearsDone, ?hostClearsIe⟩
  case hostSetsIe =>
    intro es hidle he hie
    refine ⟨_, step_writeReg (r := .config) he (by decide), ?_⟩
    rw [State.respond_irq, State.writeReg_config_irq (by exact hidle), hie, Bool.and_true]
  case statusClearsDone =>
    intro hclear
    rw [State.writeReg_status_irq, hclear, Bool.not_true, Bool.and_false]
  case hostClearsIe =>
    intro hidle hie
    rw [State.writeReg_config_irq hidle, hie, Bool.and_false]

end Sys2Proof.Machine
end

section
/-! SUPPORT. The reset and hazard family: what a busy core does with the host's writes, what an idle core does alone, and
the state that reset and power-on leave. -/

namespace Sys2Proof.Machine

/-! ## Idle and busy (R273, R276) -/

/-- With nothing in flight there is no decoder, so no token (R45). -/
theorem State.tokenReady_idle {s : State} (h : s.flight = none) : s.tokenReady = none := by
  simp only [State.tokenReady, h]

/-- Settles O10: no token is ready and there is nothing to commit. -/
theorem idleCoreWaits : Obligations.IdleCoreWaits := by
  intro s hidle he
  rw [step_notReady he (State.tokenReady_idle hidle), commitTurn_idle hidle]

/-- A command in flight is BUSY = 1 (R37). -/
theorem State.busy_of_flight {s : State} {f : Flight} (h : s.flight = some f) : s.busy = true := by
  rw [State.busy, h, Option.isSome_some]

/-- R276: while busy, the write rule of each of the four targets is the hazard alone. -/
theorem State.writeTarget_busy {s : State} (h : s.busy = true) {target : Target}
    (ht : target = .reg .config ∨ target = .reg .inLen ∨ (∃ k, target = .ibuf k) ∨ ∃ k, target = .obuf k)
    (n : Nat) (v : Word) : s.writeTarget target n v = s.hazard := by
  obtain rfl | rfl | ⟨k, rfl⟩ | ⟨k, rfl⟩ := ht <;> exact if_pos h

/-- Settles O39: none of the four targets is CMD, so the step is the target's write, and that is the hazard. -/
theorem writeWhileBusyIsIgnored : Obligations.WriteWhileBusyIsIgnored := by
  intro s f a n v target es hf he hres ht
  have hcmd : target ≠ .reg .cmd := by
    rintro rfl
    simp at ht
  have hbusy : ({ s with pending := es } : State).busy = true := State.busy_of_flight hf
  rw [step_write he hres hcmd, State.writeTarget_busy hbusy ht]
  rfl

/-! ## The registers after reset (R270) -/

theorem step_reset {s : State} {es : List Event} (he : s.pending = .reset :: es) :
    step s = .next ({ s with pending := es } : State).resetStep := by
  simp only [step, he, eventTurn]

/-- Power-on is the reset of a core that has made no draw yet. -/
theorem State.ofBuild_eq_resetStep (b : Build) :
    State.ofBuild b = ({ State.ofBuild b with draws := 0 } : State).resetStep := rfl

/-- The table of R270: what each register of a core of build `b` reads after reset. -/
def Reg.resetValue (b : Build) : Reg → Word
  | .id => 0x524C5A01
  | .cap => (if b.hasSelector then 1 else 0) + (if b.wmOverlap then 2 else 0)
  | .ibufSize => BitVec.ofNat 32 b.ibufSize
  | .obufSize => BitVec.ofNat 32 b.obufSize
  | .config => 0x00000314
  | .inLen => 0
  | .cmd => 0
  | .status => 0
  | .outLen => 0
  | .result => 0

/-- CAP as a sum of its two bits (R25). -/
theorem State.readReg_cap_eq_add (s : State) :
    s.readReg .cap = (if s.build.hasSelector then 1 else 0) + (if s.build.wmOverlap then 2 else 0) := by
  rw [State.readReg]
  cases s.build.hasSelector <;> cases s.build.wmOverlap <;> rfl

/-- With every flag low and no error, STATUS reads 0 (R36). -/
theorem State.statusWord_eq_zero {s : State} (hbusy : s.busy = false) (hdone : s.done = false) (herr : s.err = none)
    (hhaz : s.haz = false) : s.statusWord = 0 := by
  rw [State.statusWord, State.errCode, hbusy, hdone, herr, hhaz]
  rfl

/-- R270: after reset every register reads its value of the table, whatever the state before. -/
theorem State.resetStep_readReg (s : State) (r : Reg) : s.resetStep.readReg r = r.resetValue s.build := by
  cases r with
  | cap => exact State.readReg_cap_eq_add _
  | status => exact State.statusWord_eq_zero s.resetStep_busy s.resetStep_done s.resetStep_err s.resetStep_haz
  | config => exact (by decide : ConfigReg.reset.word = 0x00000314)
  | id | ibufSize | obufSize | inLen | cmd | outLen | result => rfl

theorem State.ofBuild_readReg (b : Build) (r : Reg) : (State.ofBuild b).readReg r = r.resetValue b := by
  rw [State.ofBuild_eq_resetStep, State.resetStep_readReg]
  rfl

/-- Settles O46: a reset step and power-on both leave the table of R270, and DONE, so `irq`, low. -/
theorem resetGivesTheStatedValues : Obligations.ResetGivesTheStatedValues := by
  rintro _ s es he rfl
  refine ⟨_, step_reset he, rfl, fun u hu => ?_⟩
  have reads : ∀ r, u.readReg r = r.resetValue s.build := by
    obtain rfl | rfl := hu
    · exact State.resetStep_readReg _
    · exact State.ofBuild_readReg _
  have hdone : u.done = false := by obtain rfl | rfl := hu <;> rfl
  exact ⟨reads .id, reads .cap, reads .ibufSize, reads .obufSize, reads .config, reads .inLen, reads .cmd,
    reads .status, reads .outLen, reads .result, State.irq_of_not_done hdone⟩

/-! ## The buffers after reset (R271, R272) -/

/-- A buffer that lists nothing reads as its draw everywhere. -/
@[simp] theorem Memory.unspecified_read (draw k : Nat) : (Memory.unspecified draw).read k = Config.freeByte draw k :=
  rfl

/-- Settles O47: the step is `resetStep`, which leaves both buffers to two draws made at it. -/
theorem resetDiscardsTheCommandAndTheBuffers : Obligations.ResetDiscardsTheCommandAndTheBuffers := by
  intro s es he
  refine ⟨_, step_reset he, State.resetStep_flight _, State.resetStep_done _, State.resetStep_pending _, fun k => ?_⟩
  rw [State.resetStep_ibuf, State.resetStep_obuf, Memory.unspecified_read, Memory.unspecified_read]
  exact ⟨rfl, rfl⟩

/-! ## The invariant at power-on -/

theorem State.ofBuild_inv {b : Build} (hb : b.Legal) : (State.ofBuild b).Inv where
  build := hb
  minMatch := show 3 ≤ ConfigReg.reset.minMatch.toNat by decide
  ibuf := (State.ofBuild_wf b).1
  obuf := (State.ofBuild_wf b).2
  ibufDraw := show 0 < 2 by decide
  obufDraw := show 1 < 2 by decide
  outLen := Nat.zero_le _
  flight := nofun

/-- Settles O48; `State.reset` is the power-on state of the build R6 suggests, which is legal. -/
theorem resetMeetsTheInvariant : Obligations.ResetMeetsTheInvariant :=
  ⟨fun _ => State.ofBuild_inv, State.ofBuild_inv (b := Config.suggestedBuild) (by decide)⟩

end Sys2Proof.Machine
end
